-- ==== Sys2Proof/Word.lean ====
section
/-!
DEFINITION. The word types of the block (00_scope.md R11: every quantity is unsigned).
-/

namespace Sys2Proof

/-- A byte of the accumulator store or of a table image (20_memory.md R70, R74). -/
abbrev Byte := BitVec 8

/-- One row of a transition table (30_encoding.md R100). -/
abbrev Row := BitVec 64

/-- A parameter entry, a threshold value, a raw 16-bit duration (30_encoding.md R111). -/
abbrev Entry := BitVec 16

/-- A row index, `status`, `cnt`, `NBITS` (10_state.md R22, R24, R29). -/
abbrev Index8 := BitVec 8

/-- A timestamp of `TSW` = 32 bits (00_scope.md R9; PRESUMED by the spec's own G1, log 29). -/
abbrev Stamp := BitVec 32

end Sys2Proof
end

