-- ==== Sys2Proof/Syntax.lean ====
section
/-!
DEFINITION. The row ISA as syntax: threshold operands, successors and the seven operations
(30_encoding.md R101 to R107). One constructor of `Instr` per row of spec/opcode_table.json.
An instruction holds only the fields its operation reads (30_encoding.md R102).
-/

namespace Sys2Proof

/-- Sentinel codes (30_encoding.md R106). -/
inductive Sentinel where
  /-- code 0, "don't care": not a value -/
  | dc
  /-- code 1 -/
  | zero
  /-- code 2 -/
  | one
  /-- code 3, "maximum possible" -/
  | max
  /-- code 4, "bit-count-minus-one" -/
  | nbm1
  /-- codes 5 to 65535 -/
  | reserved (code : Entry)
deriving DecidableEq, Repr, Inhabited

/-- Threshold operands: kind and payload (30_encoding.md R103). -/
inductive Operand where
  /-- `LIT`, the literal itself -/
  | lit (v : Entry)
  /-- `PAR`, `P[i]` -/
  | par (i : Entry)
  /-- `PIND`, `P[P[i]]` -/
  | pind (i : Entry)
  /-- `SEN` -/
  | sen (s : Sentinel)
deriving DecidableEq, Repr, Inhabited

/-- Successor fields (30_encoding.md R107). -/
inductive Succ where
  /-- indirect bit 0: the row index itself -/
  | direct (n : Index8)
  /-- indirect bit 1: `P[i]` -/
  | indirect (i : Index8)
deriving DecidableEq, Repr, Inhabited

/-- The seven operations (30_encoding.md R101). -/
inductive Instr where
  /-- `WAIT`, wait-for-level (43_interpreter.md R240) -/
  | wait (min max : Operand) (nt nf : Succ)
  /-- `TERM`, terminate (R241) -/
  | term (nt : Succ)
  /-- `CHKD`, check-duration-range (R242) -/
  | chkd (min max : Operand) (nt nf : Succ)
  /-- `RSTB`, reset-bits (R243) -/
  | rstb (nt : Succ)
  /-- `ADD0`, append-zero-bit (R244) -/
  | add0 (nt : Succ)
  /-- `ADD1`, append-one-bit (R245) -/
  | add1 (nt : Succ)
  /-- `CHKB`, check-bit-count (R246) -/
  | chkb (min max : Operand) (nt nf : Succ)
deriving DecidableEq, Repr, Inhabited

/-- The `OP` code of an instruction (30_encoding.md R101). -/
def Instr.opcode : Instr → BitVec 4
  | .wait _ _ _ _ => 0
  | .term _ => 1
  | .chkd _ _ _ _ => 2
  | .rstb _ => 3
  | .add0 _ => 4
  | .add1 _ => 5
  | .chkb _ _ _ _ => 6

end Sys2Proof
end

