-- ==== Sys2Proof/WellFormed.lean ====
section
/-!
DEFINITION. Well-formed syntax: every value an encoding admits, and no second spelling of one encoding.
The only condition is on `Sentinel.reserved`: its code is one of 5 to 65535 (30_encoding.md R106), because
codes 0 to 4 have names. (The static check of a whole table, 43_interpreter.md R238, needs the parameter
vector: it stands in Safety.lean.)
-/

namespace Sys2Proof

/-- A reserved sentinel code is 5 or above (30_encoding.md R106). -/
def Sentinel.wf : Sentinel → Bool
  | .reserved c => decide (5 ≤ c.toNat)
  | .dc => true
  | .zero => true
  | .one => true
  | .max => true
  | .nbm1 => true

/-- An operand is well formed when its sentinel is. -/
def Operand.wf : Operand → Bool
  | .sen s => s.wf
  | .lit _ => true
  | .par _ => true
  | .pind _ => true

/-- An instruction is well formed when both its operands are. -/
def Instr.wf : Instr → Bool
  | .wait min max _ _ => min.wf && max.wf
  | .chkd min max _ _ => min.wf && max.wf
  | .chkb min max _ _ => min.wf && max.wf
  | .term _ => true
  | .rstb _ => true
  | .add0 _ => true
  | .add1 _ => true

end Sys2Proof
end

