-- ==== Sys2Proof/Decode.lean ====
section
/-!
DEFINITION. The decoder of rows, total on any 64-bit word and on any bytes, and after it the encoder
(30_encoding.md R100 to R121; 20_memory.md R74).
-/

namespace Sys2Proof

/-- Why a row has no instruction (30_encoding.md R113). Both raise `BAD_OPCODE` with `VAL = OP` when the
row is evaluated; `truncated` is of the byte form only. -/
inductive DecodeError where
  /-- `RES` is nonzero, whatever `OP` is (R108) -/
  | reservedBits (op : BitVec 4)
  /-- `OP` is 7 to 15 (R101) -/
  | reservedOpcode (op : BitVec 4)
  /-- fewer than 8 bytes (R121) -/
  | truncated
deriving DecidableEq, Repr

/-! ## Fields (R100) -/

def rowOp (w : Row) : BitVec 4 := w.extractLsb' 60 4
def rowKmin (w : Row) : BitVec 2 := w.extractLsb' 58 2
def rowKmax (w : Row) : BitVec 2 := w.extractLsb' 56 2
def rowVmin (w : Row) : Entry := w.extractLsb' 40 16
def rowVmax (w : Row) : Entry := w.extractLsb' 24 16
def rowNt (w : Row) : Index8 := w.extractLsb' 16 8
def rowNf (w : Row) : Index8 := w.extractLsb' 8 8
def rowIt (w : Row) : BitVec 1 := w.extractLsb' 7 1
def rowIf (w : Row) : BitVec 1 := w.extractLsb' 6 1
def rowRes (w : Row) : BitVec 6 := w.extractLsb' 0 6

/-- Sentinel of a code (R106). -/
def decodeSentinel (code : Entry) : Sentinel :=
  if code = 0#16 then .dc
  else if code = 1#16 then .zero
  else if code = 2#16 then .one
  else if code = 3#16 then .max
  else if code = 4#16 then .nbm1
  else .reserved code

/-- Threshold operand of a kind and a payload (R103). -/
def decodeOperand (kind : BitVec 2) (payload : Entry) : Operand :=
  if kind = 0#2 then .lit payload
  else if kind = 1#2 then .par payload
  else if kind = 2#2 then .pind payload
  else .sen (decodeSentinel payload)

/-- Successor of an indirect bit and a field (R107). -/
def decodeSucc (indirect : BitVec 1) (field : Index8) : Succ :=
  if indirect = 0#1 then .direct field else .indirect field

/-- The instruction of a row word. Only the fields the operation reads are decoded (R102); `RES` is checked
for every operation (R108). -/
def decode (w : Row) : Except DecodeError Instr :=
  if rowRes w ≠ 0#6 then .error (.reservedBits (rowOp w))
  else
    let min := decodeOperand (rowKmin w) (rowVmin w)
    let max := decodeOperand (rowKmax w) (rowVmax w)
    let nt := decodeSucc (rowIt w) (rowNt w)
    let nf := decodeSucc (rowIf w) (rowNf w)
    match (rowOp w).toNat with
    | 0 => .ok (.wait min max nt nf)
    | 1 => .ok (.term nt)
    | 2 => .ok (.chkd min max nt nf)
    | 3 => .ok (.rstb nt)
    | 4 => .ok (.add0 nt)
    | 5 => .ok (.add1 nt)
    | 6 => .ok (.chkb min max nt nf)
    | _ => .error (.reservedOpcode (rowOp w))

/-! ## Bytes (20_memory.md R74, R119, R121) -/

/-- The 8 bytes of a row, most significant first. -/
def rowBytes (w : Row) : List Byte :=
  [w.extractLsb' 56 8, w.extractLsb' 48 8, w.extractLsb' 40 8, w.extractLsb' 32 8,
   w.extractLsb' 24 8, w.extractLsb' 16 8, w.extractLsb' 8 8, w.extractLsb' 0 8]

/-- The row word of 8 bytes, most significant first. -/
def bytesRow (b7 b6 b5 b4 b3 b2 b1 b0 : Byte) : Row :=
  b7 ++ b6 ++ b5 ++ b4 ++ b3 ++ b2 ++ b1 ++ b0

/-- Read one row word from the front of a byte sequence. -/
def takeRow : List Byte → Option (Row × List Byte)
  | b7 :: b6 :: b5 :: b4 :: b3 :: b2 :: b1 :: b0 :: rest =>
    some (bytesRow b7 b6 b5 b4 b3 b2 b1 b0, rest)
  | _ => none

/-- Decode the instruction at the front of a byte sequence and return the bytes after it. -/
def decodeBytes (bs : List Byte) : Except DecodeError (Instr × List Byte) :=
  match takeRow bs with
  | none => .error .truncated
  | some (w, rest) =>
    match decode w with
    | .error e => .error e
    | .ok i => .ok (i, rest)

/-- The instruction read from an instruction whose bits are `w` (`nbits` of them), numbered with bit 0 the
least significant bit of the row: laid out as the 8 bytes of R74 and given to the decoder. -/
def decodeTableWord (nbits w : Nat) : Option Instr :=
  match decodeBytes (rowBytes (BitVec.ofNat 64 (w % 2 ^ nbits))) with
  | .ok (i, _) => some i
  | .error _ => none

/-! ## Encoder -/

/-- Code of a sentinel (R106). -/
def encodeSentinel : Sentinel → Entry
  | .dc => 0#16
  | .zero => 1#16
  | .one => 2#16
  | .max => 3#16
  | .nbm1 => 4#16
  | .reserved c => c

/-- Kind of an operand (R103). -/
def operandKind : Operand → BitVec 2
  | .lit _ => 0#2
  | .par _ => 1#2
  | .pind _ => 2#2
  | .sen _ => 3#2

/-- Payload of an operand (R103). -/
def operandPayload : Operand → Entry
  | .lit v => v
  | .par i => i
  | .pind i => i
  | .sen s => encodeSentinel s

/-- Indirect bit of a successor (R107). -/
def succIndirect : Succ → BitVec 1
  | .direct _ => 0#1
  | .indirect _ => 1#1

/-- Field of a successor (R107). -/
def succField : Succ → Index8
  | .direct n => n
  | .indirect i => i

/-- A row word from its fields, `RES = 0` (R100, R108). -/
def packRow (op : BitVec 4) (min max : Operand) (nt nf : Succ) : Row :=
  op ++ operandKind min ++ operandKind max ++ operandPayload min ++ operandPayload max ++
    succField nt ++ succField nf ++ succIndirect nt ++ succIndirect nf ++ 0#6

/-- A row of an operation that reads only `NT`: the assembler writes `DC` operands, `NF = 0`, `IF = 0`
(R120). -/
def packShort (op : BitVec 4) (nt : Succ) : Row :=
  packRow op (.sen .dc) (.sen .dc) nt (.direct 0#8)

/-- The row word of an instruction. -/
def encode : Instr → Row
  | .wait min max nt nf => packRow 0 min max nt nf
  | .term nt => packShort 1 nt
  | .chkd min max nt nf => packRow 2 min max nt nf
  | .rstb nt => packShort 3 nt
  | .add0 nt => packShort 4 nt
  | .add1 nt => packShort 5 nt
  | .chkb min max nt nf => packRow 6 min max nt nf

/-- The bytes of a table image: its rows in index order (R119). -/
def tableImage : List Row → List Byte
  | [] => []
  | w :: ws => rowBytes w ++ tableImage ws

/-- The table of `len` rows at the front of an image; none when the image is not exactly `8 * len` bytes
long (R121). -/
def parseImage : Nat → List Byte → Option (List Row)
  | 0, [] => some []
  | 0, _ :: _ => none
  | n + 1, bs =>
    match takeRow bs with
    | none => none
    | some (w, rest) =>
      match parseImage n rest with
      | none => none
      | some ws => some (w :: ws)

end Sys2Proof
end

