-- ==== Sys2Proof/Config.lean ====
section
/-!
DEFINITION. What an implementation fixes and the spec leaves OPEN (00_scope.md R9), and the free values.
Each is a constant with no body: no proof can learn its value.
The OPEN build parameters that the register view shows (COMPRESS, QCAP) and the channel-clear numbers are
fields of State instead (log 1).
-/

namespace Sys2Proof

/-- The protocol families of the table builder (41_table_builder.md R161). -/
inductive Family where
  | tribit
  | tribitInv
  | manchester
deriving DecidableEq, Repr, Inhabited

/-- A table template with its dispatch rows (41_table_builder.md R171 to R173).
A template has at least one row, and the table it gives is cut at 256 rows, so that `1 <= LEN <= 256`
(00_scope.md R9) holds of every template (log 8). -/
structure Template where
  firstRow : Row
  moreRows : List Row
  prefixRow : Entry
  payloadRow : Entry
  normalRow : Entry
  specialRow : Entry
deriving DecidableEq, Repr, Inhabited

namespace Config

/-- `TEMPLATE_TRIBIT`, `TEMPLATE_TRIBIT_INV`, `TEMPLATE_MANCHESTER` (41_table_builder.md R173; log 8). -/
opaque template : Family → Template

/-- `PREFIX_WINDOW` in the active compression mode (41_table_builder.md R169; log 9). -/
opaque prefixWindow : Bool → Entry → Entry × Entry

/-- `FLI_CODE` in the active compression mode (41_table_builder.md R169; log 9). -/
opaque fliCode : Bool → Entry → Entry

/-- `LLO_CODE` in the active compression mode (41_table_builder.md R169; log 9). -/
opaque lloCode : Bool → Entry → Entry

/-- `CC_RANGE`: whether an edge interval lies in the plausible range (45_host_interface.md R326; log 19). -/
opaque ccInRange : Stamp → Bool

/-- A count read from a decoder that is not ready: any value (42_bit_accumulator.md R201, U20; log 13). -/
opaque freeCount : Nat → Index8

/-- A bit read from a decoder that is not ready: any value (U20; log 13). -/
opaque freeBit : Nat → Bool

/-- A byte read from a decoder that is not ready: any value (U20; log 13). -/
opaque freeByte : Nat → Byte

/-- The bytes behind a hex dump of a decoder that is not ready: any value (U20; log 13). -/
opaque freeBytes : Nat → List Byte

/-- A comparison with the frame of a decoder that is not ready: any result (U20; log 13). -/
opaque freeOrdering : Nat → Ordering

/-- `fault.VAL` of a `register_decoder` whose only defect is that `NDEC` would exceed 255: the spec gives
no item number for it (45_host_interface.md R313, D47; log 12). -/
opaque freeConfigVal : Nat → Entry

end Config

end Sys2Proof
end

