-- ==== Sys2Proof/Machine/State.lean ====
section
/-!
DEFINITION. The state of the block, plain data (10_state.md), the inputs that act on it, and the reasons a
step can stop. INVENTORY.md, '## State', lists every field with its rule and its reset value.
-/

namespace Sys2Proof.Machine

open Sys2Proof

/-- Build parameters shown by the register CFG (10_state.md R40) and the channel-clear numbers
(00_scope.md R9). Fixed at build: no action writes them. -/
structure BuildCfg where
  /-- `COMPRESS` -/
  compress : Bool
  /-- log2 of `QCAP`, legal 1 to 15 -/
  qcapLog2 : BitVec 4
  /-- `CC_WINDOW` -/
  ccWindow : Nat
  /-- `CC_VOTES` -/
  ccVotes : Nat
deriving DecidableEq, Repr

/-- `QCAP`, the ring-buffer capacity `N` (00_scope.md R9). -/
abbrev BuildCfg.qcap (c : BuildCfg) : Nat := 2 ^ c.qcapLog2.toNat

/-- An event: a duration code and the line level (30_encoding.md R109). The code is held in 16 bits in both
compression modes (log 25). -/
structure Event where
  d : Entry
  lvl : Bool
deriving DecidableEq, Repr, Inhabited

/-- A frame value `(cnt, V)` (45_host_interface.md R316, R324). -/
structure Frame where
  cnt : Index8
  v : Nat
deriving DecidableEq, Repr

/-- A callback as given at registration (45_host_interface.md R311): the host function's identifier, the
filter and the retrigger interval. -/
structure CallbackSpec where
  fn : Nat
  filter : Option Frame
  interval : Stamp
deriving DecidableEq, Repr

/-- A callback record (45_host_interface.md R316). -/
structure Callback where
  fn : Nat
  filter : Option Frame
  interval : Stamp
  last : Stamp
  fired : Bool
deriving DecidableEq, Repr

/-- One decoder: its configuration (`T_k`, `P_k`, `NBITS_k`, 10_state.md R27 to R29, written by registration
only), its four pieces of state (R21 to R25; `v` and `cnt` are the accumulator, log 26) and the callback
records of the host (45_host_interface.md R316). -/
structure Decoder where
  table : List Row
  params : List Entry
  nbits : Index8
  status : Index8
  v : Nat
  cnt : Index8
  ready : Bool
  callbacks : List Callback
deriving DecidableEq, Repr

/-- The signal queue (10_state.md R30, R31): `QCAP` slots and the two cursors. -/
structure Queue where
  slots : List Event
  r : Nat
  w : Nat
deriving DecidableEq, Repr

/-- Producer state (10_state.md R32). -/
structure Producer where
  prevTs : Stamp
deriving DecidableEq, Repr

/-- Consumer phases (10_state.md R36). -/
inductive Phase where
  | idle
  | fetch
  | feed
  | retire
deriving DecidableEq, Repr

/-- Consumer state (10_state.md R33 to R36). -/
structure Consumer where
  busy : Bool
  hold : Event
  holdValid : Bool
  phase : Phase
  cur : Nat
  first : Bool
deriving DecidableEq, Repr

/-- Fault codes (60_exceptions.md R341); their numbers are `FaultCode.number` of Machine/Ops.lean. -/
inductive FaultCode where
  | none
  | badOpcode
  | badOperand
  | badSuccessor
  | bitOverflow
  | bitIndex
  | config
deriving DecidableEq, Repr

/-- The fault registers (10_state.md R38). -/
structure FaultRegs where
  fatal : Bool
  code : FaultCode
  dec : Index8
  row : Index8
  val : Entry
deriving DecidableEq, Repr

/-- What a row evaluation or a registration raises: the code and `VAL` (60_exceptions.md R341). -/
structure Defect where
  code : FaultCode
  val : Entry
deriving DecidableEq, Repr

/-- Inputs of `register_decoder` that the builder reads (41_table_builder.md R161); widths in
microseconds, 0 when unset. -/
structure TimingParams where
  family : Family
  initialSequenceMin : Entry
  prefixLow : Entry
  prefixHigh : Entry
  firstLowIgnore : Entry
  lowShort : Entry
  lowLong : Entry
  highShort : Entry
  highLong : Entry
  lastLowOverride : Entry
  separatorMin : Entry
  bitCount : Nat
deriving DecidableEq, Repr

/-- Host operations (45_host_interface.md R310, R322; reads of the register view, 10_state.md R40). A decoder is
named by its handle, its index. -/
inductive HostOp where
  | registerDecoder (t : TimingParams) (cb : Option CallbackSpec)
  | registerTable (table : List Row) (params : List Entry) (nbits : Nat) (cbs : List CallbackSpec)
  | hasAnyFrameReady
  | blockUntilFrameReady
  | dispatchReadyFrames (now : Stamp)
  | resetDecoder (k : Nat)
  | bitCount (k : Nat)
  | byteCount (k : Nat)
  | nthBit (k : Nat) (i : Entry)
  | nthByte (k : Nat) (i : Entry)
  | toHexString (k : Nat)
  | compareFrame (k : Nat) (f : Frame)
  | readFault
  | waitChannelClear (timeout : Option Stamp)
  | readCfg
  | readDcfg (k : Nat)
  | readDstat (k : Nat)
deriving DecidableEq, Repr

/-- One invocation of a callback by a dispatch: decoder, callback function, the frame it receives
(45_host_interface.md R317, R324). -/
structure Call where
  dec : Nat
  fn : Nat
  frame : Frame
deriving DecidableEq, Repr

/-- The value a host operation returns (the model's own observation of it, log 21). -/
inductive Reply where
  | none
  | handle (k : Nat)
  | flag (b : Bool)
  | done
  | dispatched (calls : List Call)
  | count (n : Index8)
  | bit (b : Bool)
  | byte (b : Byte)
  | hex (s : Option String)
  | ordering (o : Ordering)
  /-- `(FATAL, CODE, DEC, ROW, VAL)`, the code as its number (60_exceptions.md R341, R353) -/
  | faultRecord (fatal : Bool) (code : BitVec 3) (dec row : Index8) (val : Entry)
  /-- `true`: clear; `false`: timed out -/
  | channel (clear : Bool)
  | cfgReg (compress : Bool) (qcapLog2 : BitVec 4) (ndec : Index8)
  | dcfgReg (len nparam : BitVec 9) (nbits : Index8)
  | dstatReg (status cnt : Index8) (ready : Bool)
deriving DecidableEq, Repr

/-- Host-side state: the channel-clear window (45_host_interface.md R326; newest first, log 19) and the last
reply. -/
structure HostSide where
  ccTimes : List Stamp
  reply : Reply
deriving DecidableEq, Repr

/-- One turn of the interleaving (20_memory.md R83, log 4). -/
inductive Turn where
  /-- a signal edge: the producer's push (44_signal_queue.md R272) -/
  | edge (ts : Stamp) (lvl : Bool)
  /-- the consumer's next atomic action (44_signal_queue.md R276 to R279) -/
  | consumer
  /-- the oldest pending host operation (45_host_interface.md R325) -/
  | host
  /-- `read_fault`, always enabled (60_exceptions.md R353) -/
  | readFault
  /-- the timeout of a pending `wait_channel_clear` expires (45_host_interface.md R326) -/
  | timeout
  /-- block reset (70_reset_and_hazards.md R380) -/
  | blockReset
deriving DecidableEq, Repr

/-- The environment's inputs: who moves next, and the host operations still to run, both oldest first (log 4, log 5).
With no turn listed the consumer moves while it has an action, otherwise the host. -/
structure Env where
  turns : List Turn
  hostOps : List HostOp
deriving DecidableEq, Repr

/-- The model's own bookkeeping: whether an edge has been pushed (45_host_interface.md R312, log 14), and the counter
that picks the next free value (log 13). -/
structure Aux where
  started : Bool
  freeCtr : Nat
deriving DecidableEq, Repr

/-- The state of the block (10_state.md R20), its host side and its environment. -/
structure State where
  cfg : BuildCfg
  decs : List Decoder
  q : Queue
  prod : Producer
  cons : Consumer
  fault : FaultRegs
  host : HostSide
  env : Env
  aux : Aux
deriving DecidableEq, Repr

/-- The model's own stops. The block's fatal defects are NOT among them: they are next states with the fault
record written (60_exceptions.md R350). -/
inductive Fault where
  /-- Raised by a feed (or by `exec`) whose `cons.cur` names no decoder: the spec's `cur` is 0 to `NDEC`
  (10_state.md R36), so no state that a run reaches raises it. Safe (log 16). -/
  | noSuchDecoder
  /-- Raised by a fetch whose read cursor names no slot: the spec's cursors are 0 to `N - 1` (10_state.md R31), so no
  state that a run reaches raises it. Safe (log 16). -/
  | noSuchSlot
deriving DecidableEq, Repr

/-- What the model refuses. -/
inductive Refusal where
  /-- Raised by an arm of `exec` whose instruction has no meaning yet. Safe. -/
  | notModelled (mnemonic : String)
  /-- Raised by a registration after the first edge event, which the spec refuses (45_host_interface.md R312, U43).
  Safe (log 14). -/
  | registrationAfterFirstEdge
  /-- Raised by a host operation on a handle no registration returned: the spec gives it no effect
  (45_host_interface.md R311). Safe (log 15). -/
  | noSuchHandle
deriving DecidableEq, Repr

/-- An empty queue of `n` slots (R380); the slots' contents are unspecified there and hold the event `(0, 0)`
here (log 2). -/
def Queue.empty (n : Nat) : Queue :=
  { slots := List.replicate n { d := 0, lvl := false }, r := 0, w := 0 }

/-- The idle consumer (R380); `hold` is unspecified there and holds the event `(0, 0)` here (log 3). -/
def Consumer.idle : Consumer :=
  { busy := false, hold := { d := 0, lvl := false }, holdValid := false, phase := .idle, cur := 0,
    first := true }

/-- No fault (R341, R380). -/
def FaultRegs.clear : FaultRegs :=
  { fatal := false, code := .none, dec := 0, row := 0, val := 0 }

/-- The state after block reset of a block built with the parameters `c` (70_reset_and_hazards.md R380). -/
def State.resetOf (c : BuildCfg) : State :=
  { cfg := c
    decs := []
    q := Queue.empty c.qcap
    prod := { prevTs := 0 }
    cons := Consumer.idle
    fault := FaultRegs.clear
    host := { ccTimes := [], reply := .none }
    env := { turns := [], hostOps := [] }
    aux := { started := false, freeCtr := 0 } }

/-- Build parameters of the reset state: compression on, 16 slots, the reference channel-clear numbers
(DESIGN CHOICE, log 1). -/
def BuildCfg.default : BuildCfg :=
  { compress := true, qcapLog2 := 4, ccWindow := 16, ccVotes := 12 }

/-- The machine right after block reset (70_reset_and_hazards.md R380), with no decoder registered. -/
def State.reset : State := State.resetOf BuildCfg.default

end Sys2Proof.Machine
end

