-- ==== Sys2Proof/Machine/Ops.lean ====
section
/-!
DEFINITION. Named operations over the state: the decoder list, parameter and row reads, taking a fatal
defect, block reset, the accumulator's two row operations, decoder reset.
-/

namespace Sys2Proof.Machine

open Sys2Proof

/-! ## Updates of one part of the state -/

def State.setDecs (s : State) (x : List Decoder) : State := { s with decs := x }
def State.setQ (s : State) (x : Queue) : State := { s with q := x }
def State.setProd (s : State) (x : Producer) : State := { s with prod := x }
def State.setCons (s : State) (x : Consumer) : State := { s with cons := x }
def State.setFault (s : State) (x : FaultRegs) : State := { s with fault := x }
def State.setHost (s : State) (x : HostSide) : State := { s with host := x }
def State.setEnv (s : State) (x : Env) : State := { s with env := x }
def State.setAux (s : State) (x : Aux) : State := { s with aux := x }

/-- Write the record of decoder `k` (00_scope.md R12, `dec[k].F <- v`). -/
def State.setDec (s : State) (k : Nat) (d : Decoder) : State :=
  s.setDecs (s.decs.set k d)

/-- Record the value a host operation returns. -/
def State.setReply (s : State) (r : Reply) : State :=
  s.setHost { s.host with reply := r }

/-- Use up one free value (log 13). -/
def State.bumpFree (s : State) : State :=
  s.setAux { s.aux with freeCtr := s.aux.freeCtr + 1 }

/-! ## The fatal defect and block reset -/

/-- The 3-bit number of a fault code, the contents of `fault.CODE` (60_exceptions.md R341); 7 is unused. -/
def FaultCode.number : FaultCode → BitVec 3
  | .none => 0
  | .badOpcode => 1
  | .badOperand => 2
  | .badSuccessor => 3
  | .bitOverflow => 4
  | .bitIndex => 5
  | .config => 6

/-- `raise Fatal(code, (k, row, val))` (60_exceptions.md R350): write the fault record and nothing else (R351). -/
def raiseFatal (code : FaultCode) (k row : Index8) (val : Entry) (s : State) : State :=
  s.setFault { fatal := true, code := code, dec := k, row := row, val := val }

/-- Block reset (70_reset_and_hazards.md R380): the only way out of the halt (60_exceptions.md R352). The build
parameters stay; the environment's inputs and the free-value counter are not the block's (log 18). -/
def blockReset (s : State) : State :=
  let z := State.resetOf s.cfg
  { z with env := s.env, aux := { z.aux with freeCtr := s.aux.freeCtr } }

/-! ## One decoder -/

/-- `P_k[i]`, none when `i >= NPARAM_k` (43_interpreter.md R229). -/
def paramAt (d : Decoder) (i : Nat) : Option Entry := d.params[i]?

/-- `T_k[i]`, none when `i >= LEN_k` (20_memory.md R70). -/
def rowAt (d : Decoder) (i : Nat) : Option Row := d.table[i]?

/-- Accumulator `reset()`: every byte and the count (42_bit_accumulator.md R192). -/
def accReset (d : Decoder) : Decoder := { d with v := 0, cnt := 0 }

/-- Accumulator `add_bit` (42_bit_accumulator.md R193, R194): `BIT_OVERFLOW` with `VAL = cnt` at the target. -/
def accAddBit (b : Bool) (d : Decoder) : Except Defect Decoder :=
  if d.cnt = d.nbits then .error { code := .bitOverflow, val := d.cnt.setWidth 16 }
  else .ok { d with v := 2 * d.v + b.toNat, cnt := d.cnt + 1 }

/-- `reset_decoder` on one decoder's registers (45_host_interface.md R321); the callback records stay. -/
def decoderReset (d : Decoder) : Decoder :=
  { accReset d with status := 0, ready := false }

/-! ## One row evaluation as a micro-step (43_interpreter.md R228) -/

/-- Evaluate a row of the decoder being fed: `f` gives the decoder's new registers or the defect. A defect commits
nothing to the decoder and records the decoder, the row and `VAL` (R224). -/
def rowStep (f : Decoder → Event → Except Defect Decoder) (s : State) :
    Host.Outcome State Fault Refusal :=
  match s.decs[s.cons.cur]? with
  | none => .fault .noSuchDecoder
  | some d =>
    match f d s.cons.hold with
    | .ok d' => .next (s.setDec s.cons.cur d')
    | .error e => .next (raiseFatal e.code (BitVec.ofNat 8 s.cons.cur) d.status e.val s)

end Sys2Proof.Machine
end

