-- ==== Sys2Proof/Machine/Operands.lean ====
section
/-!
DEFINITION. Resolution of threshold operands and successors (43_interpreter.md R229, R230, R232, R233).
-/

namespace Sys2Proof.Machine

open Sys2Proof

/-- `BAD_OPERAND` with the offending value (60_exceptions.md R341, R343). -/
def badOperand (x : Entry) : Defect := { code := .badOperand, val := x }

/-- `BAD_SUCCESSOR` with the resolved successor (60_exceptions.md R341, R344). -/
def badSuccessor (x : Entry) : Defect := { code := .badSuccessor, val := x }

/-- Sentinel values (R230); reading `DC` or a reserved code is `BAD_OPERAND` (30_encoding.md R106). -/
def resolveSentinel (d : Decoder) : Sentinel → Except Defect Entry
  | .zero => .ok 0
  | .one => .ok 1
  | .max => .ok 0xFFFF
  | .nbm1 => .ok (d.nbits.setWidth 16 - 1)
  | .dc => .error (badOperand 0)
  | .reserved c => .error (badOperand c)

/-- `res_k` (R229). -/
def resolveOperand (d : Decoder) : Operand → Except Defect Entry
  | .lit v => .ok v
  | .par i =>
    match paramAt d i.toNat with
    | none => .error (badOperand i)
    | some v => .ok v
  | .pind i =>
    match paramAt d i.toNat with
    | none => .error (badOperand i)
    | some j =>
      match paramAt d j.toNat with
      | none => .error (badOperand j)
      | some v => .ok v
  | .sen x => resolveSentinel d x

/-- The bounds check of a resolved successor (R233): `n >= LEN_k` is out of range. -/
def boundSucc (d : Decoder) (n : Entry) : Except Defect Index8 :=
  if n.toNat < d.table.length then .ok (n.setWidth 8) else .error (badSuccessor n)

/-- `succ_k` (R232). -/
def resolveSucc (d : Decoder) : Succ → Except Defect Index8
  | .direct n => boundSucc d (n.setWidth 16)
  | .indirect i =>
    match paramAt d i.toNat with
    | none => .error (badOperand (i.setWidth 16))
    | some n => boundSucc d n

/-- Resolve the successor of the branch taken and make it the new `status` (`commit(n)`, R228, R240 to R246). -/
def commitSucc (t : Succ) (d : Decoder) : Except Defect Decoder :=
  match resolveSucc d t with
  | .error e => .error e
  | .ok n => .ok { d with status := n }

end Sys2Proof.Machine
end

