-- ==== Sys2Proof/Machine/Flags.lean ====
section
/-!
DEFINITION. The outcome `ok` of a row and the branch it selects (10_state.md R39, 43_interpreter.md R231). The row
ISA has no condition codes: `ok` lives only inside the micro-step. The one flag a row writes is
`ready` (10_state.md R25).
-/

namespace Sys2Proof.Machine

open Sys2Proof

/-- The closed-interval test, unsigned; empty when `lo > hi` (R231). -/
def inRange (lo hi x : Entry) : Bool := decide (lo ≤ x) && decide (x ≤ hi)

/-- The level as the 16-bit number it is compared as (D43). -/
def levelValue (lvl : Bool) : Entry := if lvl then 1 else 0

/-- A check row: resolve the min operand, then the max operand (fault order, R223), test `x`, take the branch
(R240, R242, R246). -/
def checkRow (min max : Operand) (nt nf : Succ) (x : Entry) (d : Decoder) : Except Defect Decoder :=
  match resolveOperand d min with
  | .error e => .error e
  | .ok lo =>
    match resolveOperand d max with
    | .error e => .error e
    | .ok hi => commitSucc (if inRange lo hi x then nt else nf) d

/-- Mark the frame ready (10_state.md R25). -/
def setReady (d : Decoder) : Decoder := { d with ready := true }

end Sys2Proof.Machine
end

