-- ==== Sys2Proof/Machine/Bits.lean ====
section
/-!
DEFINITION. The accumulator rows RSTB, ADD0 and ADD1 (43_interpreter.md R243 to R245).
-/

namespace Sys2Proof.Machine

open Sys2Proof

/-- An append row: `BIT_OVERFLOW` comes before the successor's defects (R223). -/
def appendRow (b : Bool) (nt : Succ) (d : Decoder) : Except Defect Decoder :=
  match accAddBit b d with
  | .error e => .error e
  | .ok d' => commitSucc nt d'

/-- A reset-bits row (R243). -/
def resetRow (nt : Succ) (d : Decoder) : Except Defect Decoder :=
  match commitSucc nt d with
  | .error e => .error e
  | .ok d' => .ok (accReset d')

/-- `RSTB` (R243). -/
def execRstb (nt : Succ) (s : State) : Host.Outcome State Fault Refusal :=
  rowStep (fun d _ => resetRow nt d) s

/-- `ADD0` (R244). -/
def execAdd0 (nt : Succ) (s : State) : Host.Outcome State Fault Refusal :=
  rowStep (fun d _ => appendRow false nt d) s

/-- `ADD1` (R245). -/
def execAdd1 (nt : Succ) (s : State) : Host.Outcome State Fault Refusal :=
  rowStep (fun d _ => appendRow true nt d) s

end Sys2Proof.Machine
end

