-- ==== Sys2Proof/Machine/Checks.lean ====
section
/-!
DEFINITION. The check rows WAIT, CHKD and CHKB (43_interpreter.md R240, R242, R246).
-/

namespace Sys2Proof.Machine

open Sys2Proof

/-- `WAIT`: succeeds iff the event's level lies in [min, max] (R240). -/
def execWait (min max : Operand) (nt nf : Succ) (s : State) : Host.Outcome State Fault Refusal :=
  rowStep (fun d e => checkRow min max nt nf (levelValue e.lvl) d) s

/-- `CHKD`: succeeds iff the event's duration code lies in [min, max] (R242). -/
def execChkd (min max : Operand) (nt nf : Succ) (s : State) : Host.Outcome State Fault Refusal :=
  rowStep (fun d e => checkRow min max nt nf e.d d) s

/-- `CHKB`: succeeds iff the recorded bit count lies in [min, max] (R246). -/
def execChkb (min max : Operand) (nt nf : Succ) (s : State) : Host.Outcome State Fault Refusal :=
  rowStep (fun d _ => checkRow min max nt nf (d.cnt.setWidth 16) d) s

end Sys2Proof.Machine
end

