-- ==== Sys2Proof/Machine/Terminate.lean ====
section
/-!
DEFINITION. The terminate row TERM (43_interpreter.md R241).
-/

namespace Sys2Proof.Machine

open Sys2Proof

/-- A terminate row: the successor and `ready` in one commit (R241). -/
def terminateRow (nt : Succ) (d : Decoder) : Except Defect Decoder :=
  match commitSucc nt d with
  | .error e => .error e
  | .ok d' => .ok (setReady d')

/-- `TERM` (R241). The end of the burst is the feed's (44_signal_queue.md R278). -/
def execTerm (nt : Succ) (s : State) : Host.Outcome State Fault Refusal :=
  rowStep (fun d _ => terminateRow nt d) s

end Sys2Proof.Machine
end

