-- ==== Sys2Proof/Machine/Dispatch.lean ====
section
/-! DEFINITION. One arm per operation of the row ISA (43_interpreter.md R240 to R246). -/

namespace Sys2Proof.Machine

open Sys2Proof

def exec (i : Instr) (s : State) : Host.Outcome State Fault Refusal :=
  match i with
  | .wait min max nt nf => Sys2Proof.Machine.execWait min max nt nf s
  | .term nt => Sys2Proof.Machine.execTerm nt s
  | .chkd min max nt nf => Sys2Proof.Machine.execChkd min max nt nf s
  | .rstb nt => Sys2Proof.Machine.execRstb nt s
  | .add0 nt => Sys2Proof.Machine.execAdd0 nt s
  | .add1 nt => Sys2Proof.Machine.execAdd1 nt s
  | .chkb min max nt nf => Sys2Proof.Machine.execChkb min max nt nf s

end Sys2Proof.Machine
end

