-- ==== Sys2Proof/Machine/Compressor.lean ====
section
/-!
DEFINITION. The duration compressor and its inverse (40_compressor.md R140 to R148).
-/

namespace Sys2Proof.Machine

open Sys2Proof

/-- The three bands and the saturation, on naturals (R141 to R144; `>>` is floor division, 00_scope.md R11). -/
def compressNat (u : Nat) : Nat :=
  if u < 2048 then u >>> 4
  else if u < 17408 then 128 + ((u - 2048) >>> 7)
  else if u < 46080 then 248 + ((u - 17408) >>> 12)
  else 255

/-- `compress` with compression enabled: a 16-bit duration to an 8-bit code (R140). -/
def compress8 (u : Entry) : Byte := BitVec.ofNat 8 (compressNat u.toNat)

/-- The lowest duration of a code, on naturals (R146). -/
def uncompactNat (c : Nat) : Nat :=
  if c < 128 then c <<< 4
  else if c < 248 then 2048 + ((c - 128) <<< 7)
  else if c < 255 then 17408 + ((c - 248) <<< 12)
  else 46080

/-- `uncompact` with compression enabled (R146). -/
def uncompact8 (c : Byte) : Entry := BitVec.ofNat 16 (uncompactNat c.toNat)

/-- `compress` of the active mode, its code in 16 bits: the identity when compression is disabled (R148). -/
def compress (enabled : Bool) (u : Entry) : Entry :=
  if enabled then (compress8 u).setWidth 16 else u

/-- `uncompact` of the active mode (R146, R148). -/
def uncompact (enabled : Bool) (c : Entry) : Entry :=
  if enabled then uncompact8 (c.setWidth 8) else c

/-- `DMAX`, the largest duration code of the active mode (00_scope.md R9). -/
def dmax (enabled : Bool) : Nat := if enabled then 255 else 65535

end Sys2Proof.Machine
end

