-- ==== Sys2Proof/Machine/SignalQueue.lean ====
section
/-!
DEFINITION. The signal queue and the producer's push (44_signal_queue.md R270 to R274). Index arithmetic is modulo
`N = QCAP`.
-/

namespace Sys2Proof.Machine

open Sys2Proof

/-- The cursor after `i` in a ring of `n` slots (R270). -/
def nextIdx (n i : Nat) : Nat := (i + 1) % n

/-- Full: `(w + 1) mod N = r` (10_state.md R31). -/
def queueFull (n : Nat) (q : Queue) : Bool := nextIdx n q.w == q.r

/-- Empty: `r = w` (10_state.md R31). -/
def queueEmpty (q : Queue) : Bool := q.r == q.w

/-- Advance the read cursor (R273, R279). -/
def queueDrop (n : Nat) (q : Queue) : Queue := { q with r := nextIdx n q.r }

/-- Write the slot at `w` and advance `w` (R272). -/
def queueWrite (n : Nat) (e : Event) (q : Queue) : Queue :=
  { q with slots := q.slots.set q.w e, w := nextIdx n q.w }

/-- The queue part of a push: on overrun drop the oldest entry first (R272, R273). -/
def queuePush (n : Nat) (e : Event) (q : Queue) : Queue :=
  queueWrite n e (if queueFull n q then queueDrop n q else q)

/-- `sat16` of a 32-bit duration (R271). -/
def saturate (raw : Stamp) : Entry :=
  if raw.toNat ≤ 65535 then raw.setWidth 16 else 0xFFFF

/-- The raw duration of an edge, modulo 2^32 (R271). -/
def edgeRaw (ts : Stamp) (s : State) : Stamp := ts - s.prod.prevTs

/-- The event of an edge (R271). -/
def edgeEvent (ts : Stamp) (lvl : Bool) (s : State) : Event :=
  { d := compress s.cfg.compress (saturate (edgeRaw ts s)), lvl := lvl }

/-- `push(ts, lvl)` (R272): never blocks, never fails. An overrun also clears `hold_valid` (R273). The host's
channel-clear window records the edge (45_host_interface.md R326, log 19), and the first edge ends the time of
registration (R312, log 14). -/
def push (ts : Stamp) (lvl : Bool) (s : State) : State :=
  { s with
    q := queuePush s.cfg.qcap (edgeEvent ts lvl s) s.q
    prod := { prevTs := ts }
    cons := { s.cons with holdValid := s.cons.holdValid && !queueFull s.cfg.qcap s.q }
    host := { s.host with ccTimes := (edgeRaw ts s :: s.host.ccTimes).take s.cfg.ccWindow }
    aux := { s.aux with started := true } }

end Sys2Proof.Machine
end

