-- ==== Sys2Proof/Machine/Drain.lean ====
section
/-!
DEFINITION. The consumer: start, fetch, feed, retire (44_signal_queue.md R275 to R280), and the burst of one decoder
as the feed's micro-steps (43_interpreter.md R226 to R228).
-/

namespace Sys2Proof.Machine

open Sys2Proof

/-- Start is enabled iff `busy = 0`, the phase is IDLE and the queue is not empty (R276). -/
def startEnabled (s : State) : Bool :=
  s.cons.phase == .idle && !s.cons.busy && !queueEmpty s.q

/-- The start action (R276). -/
def startDrain (s : State) : State :=
  s.setCons { s.cons with busy := true, phase := .fetch }

/-- The fetch action, with the drain exit (R277, R280). -/
def fetchEvent (s : State) : Host.Outcome State Fault Refusal :=
  if queueEmpty s.q then
    .next (s.setCons { s.cons with busy := false, phase := .idle })
  else
    match s.q.slots[s.q.r]? with
    | none => .fault .noSuchSlot
    | some e =>
      .next (s.setCons { s.cons with hold := e, holdValid := true, cur := 0, first := true, phase := .feed })

/-- The retire action (R279). -/
def retireEvent (s : State) : State :=
  (s.setQ (if s.cons.holdValid then queueDrop s.cfg.qcap s.q else s.q)).setCons
    { s.cons with holdValid := false, phase := .fetch }

/-- Go on to the next decoder (R278). -/
def nextDecoder (s : State) : State :=
  s.setCons { s.cons with cur := s.cons.cur + 1, first := true }

/-- Whether an instruction is TERM, which ends the burst (R278). -/
def isTerm : Instr → Bool
  | .term _ => true
  | .wait _ _ _ _ => false
  | .chkd _ _ _ _ => false
  | .rstb _ => false
  | .add0 _ => false
  | .add1 _ => false
  | .chkb _ _ _ _ => false

/-- What the feed does after a row was evaluated (R278): nothing when the row raised a defect (60_exceptions.md R351),
the next decoder after TERM, otherwise the burst goes on. -/
def afterRow (i : Instr) (s : State) : State :=
  if s.fault.fatal then s
  else if isTerm i then nextDecoder s
  else s.setCons { s.cons with first := false }

/-- A defect of the row at `status` of the decoder being fed (43_interpreter.md R224). -/
def rowFatal (code : FaultCode) (d : Decoder) (val : Entry) (s : State) : State :=
  raiseFatal code (BitVec.ofNat 8 s.cons.cur) d.status val s

/-- Evaluate a fetched row (43_interpreter.md R222): an illegal row raises `BAD_OPCODE` with its `OP`. -/
def evaluateRow (d : Decoder) (w : Row) (s : State) : Host.Outcome State Fault Refusal :=
  match decode w with
  | .error _ => .next (rowFatal .badOpcode d ((rowOp w).setWidth 16) s)
  | .ok i =>
    match exec i s with
    | .next t => .next (afterRow i t)
    | .fault f => .fault f
    | .refused r => .refused r

/-- One micro-step of the burst of decoder `d`, the decoder `cur` (R278). The end-of-burst test reads only `OP`
(43_interpreter.md R222, C8). A `status` outside the table, which no run reaches, raises `BAD_SUCCESSOR`
(20_memory.md R76, log 17). -/
def feedDecoder (d : Decoder) (s : State) : Host.Outcome State Fault Refusal :=
  if s.cons.first && d.ready then .next (nextDecoder s)
  else
    match rowAt d d.status.toNat with
    | none => .next (rowFatal .badSuccessor d (d.status.setWidth 16) s)
    | some w =>
      if !s.cons.first && rowOp w == 0 then .next (nextDecoder s)
      else evaluateRow d w s

/-- The feed action (R278). -/
def feedEvent (s : State) : Host.Outcome State Fault Refusal :=
  if s.cons.cur = s.decs.length then .next (s.setCons { s.cons with phase := .retire })
  else
    match s.decs[s.cons.cur]? with
    | none => .fault .noSuchDecoder
    | some d => feedDecoder d s

/-- Whether the consumer has an enabled action (R270, R276 to R279). -/
def consumerEnabled (s : State) : Bool :=
  !s.fault.fatal && (s.cons.phase != .idle || startEnabled s)

/-- The consumer's action of the current phase; nothing while it is disabled. -/
def consumerTurn (s : State) : Host.Outcome State Fault Refusal :=
  if s.fault.fatal then .next s
  else
    match s.cons.phase with
    | .idle => .next (if startEnabled s then startDrain s else s)
    | .fetch => fetchEvent s
    | .feed => feedEvent s
    | .retire => .next (retireEvent s)

end Sys2Proof.Machine
end

