-- ==== Sys2Proof/Machine/Builder.lean ====
section
/-!
DEFINITION. The table builder (41_table_builder.md R160 to R178). Arithmetic is on naturals (R176).
-/

namespace Sys2Proof.Machine

open Sys2Proof

/-- The four codes of one level (R164, R165). -/
structure Windows where
  shortInf : Nat
  shortSup : Nat
  longInf : Nat
  longSup : Nat
deriving DecidableEq, Repr

/-- The nominal widths of the two levels after R162 and R163. -/
structure Widths where
  lowShort : Nat
  lowLong : Nat
  highShort : Nat
  highLong : Nat
deriving DecidableEq, Repr

/-- `sat16` (R164). -/
def sat16 (x : Nat) : Nat := min x 65535

/-- `compress(sat16(x))` in the active mode (R176, R178). -/
def codeOf (enabled : Bool) (x : Nat) : Nat := (compress enabled (BitVec.ofNat 16 (sat16 x))).toNat

/-- Mirroring of unset high widths (R162) and the Manchester widths (R163). -/
def levelWidths (t : TimingParams) : Widths :=
  if t.family = .manchester then
    let b := t.lowShort.toNat
    { lowShort := b, lowLong := sat16 (2 * b), highShort := b, highLong := sat16 (2 * b) }
  else if t.highShort = 0 ∧ t.highLong = 0 then
    { lowShort := t.lowShort.toNat, lowLong := t.lowLong.toNat,
      highShort := t.lowShort.toNat, highLong := t.lowLong.toNat }
  else
    { lowShort := t.lowShort.toNat, lowLong := t.lowLong.toNat,
      highShort := t.highShort.toNat, highLong := t.highLong.toNat }

/-- The window formulas of one level (R164; R165 for a degenerate channel). -/
def windows (enabled : Bool) (s l : Nat) : Windows :=
  if s = l then
    { shortInf := codeOf enabled (s >>> 2), shortSup := codeOf enabled (s + s / 2),
      longInf := codeOf enabled (s >>> 2), longSup := codeOf enabled (s + s / 2) }
  else
    { shortInf := codeOf enabled (s >>> 2), shortSup := codeOf enabled ((s + l) / 2),
      longInf := codeOf enabled ((s + l) / 2) + 1, longSup := codeOf enabled (l + l / 2) }

/-- The windows of the low level. -/
def lowWindows (enabled : Bool) (t : TimingParams) : Windows :=
  windows enabled (levelWidths t).lowShort (levelWidths t).lowLong

/-- The windows of the high level. -/
def highWindows (enabled : Bool) (t : TimingParams) : Windows :=
  windows enabled (levelWidths t).highShort (levelWidths t).highLong

/-- `Lmax` (R167). -/
def longMax (enabled : Bool) (t : TimingParams) : Nat :=
  max (lowWindows enabled t).longSup (highWindows enabled t).longSup

/-- The separator threshold (R167). -/
def separator (enabled : Bool) (t : TimingParams) : Nat :=
  max (codeOf enabled t.separatorMin.toNat) (longMax enabled t + 1)

/-- Prefix bounds, `(0, 0)` when unset (R169). -/
def prefixBounds (enabled : Bool) (x : Entry) : Entry × Entry :=
  if x = 0 then (0, 0) else Config.prefixWindow enabled x

/-- First-low-ignore code, 0 when unset (R169). -/
def firstLowCode (enabled : Bool) (x : Entry) : Entry :=
  if x = 0 then 0 else Config.fliCode enabled x

/-- Last-low-override code, 0 when unset (R169). -/
def lastLowCode (enabled : Bool) (x : Entry) : Entry :=
  if x = 0 then 0 else Config.lloCode enabled x

/-- The table of a template (R173), at most 256 rows (log 8). -/
def templateRows (p : Template) : List Row := p.firstRow :: p.moreRows.take 255

/-- `P[15]` (R171). -/
def entryDispatch (p : Template) (t : TimingParams) : Entry :=
  if t.prefixLow ≠ 0 ∨ t.prefixHigh ≠ 0 then p.prefixRow else p.payloadRow

/-- `P[16]` (R172). -/
def variantDispatch (p : Template) (t : TimingParams) : Entry :=
  if t.family = .tribitInv then
    if (levelWidths t).highShort = (levelWidths t).highLong then p.specialRow else p.normalRow
  else 0

/-- The parameter vector, 19 slots (R170). -/
def paramVector (enabled : Bool) (p : Template) (t : TimingParams) : List Entry :=
  let lo := lowWindows enabled t
  let hi := highWindows enabled t
  [ BitVec.ofNat 16 (codeOf enabled t.initialSequenceMin.toNat),
    BitVec.ofNat 16 lo.shortInf, BitVec.ofNat 16 lo.shortSup,
    BitVec.ofNat 16 lo.longInf, BitVec.ofNat 16 lo.longSup,
    BitVec.ofNat 16 hi.shortInf, BitVec.ofNat 16 hi.shortSup,
    BitVec.ofNat 16 hi.longInf, BitVec.ofNat 16 hi.longSup,
    BitVec.ofNat 16 (separator enabled t),
    (prefixBounds enabled t.prefixLow).1, (prefixBounds enabled t.prefixLow).2,
    (prefixBounds enabled t.prefixHigh).1, (prefixBounds enabled t.prefixHigh).2,
    BitVec.ofNat 16 t.bitCount,
    entryDispatch p t, variantDispatch p t,
    firstLowCode enabled t.firstLowIgnore, lastLowCode enabled t.lastLowOverride ]

/-- Exactly one of two widths is set (R175 item 2). -/
def oneSet (a b : Entry) : Bool := (a == 0) != (b == 0)

/-- A width is unset or equal to the derived value (R163). -/
def unsetOr (a : Entry) (x : Nat) : Bool := a == 0 || a.toNat == x

/-- The widths R163 accepts for a Manchester registration: a base width, every other width unset or the derived value. -/
def manchesterWidths (t : TimingParams) : Bool :=
  let b := t.lowShort.toNat
  t.lowShort != 0 && unsetOr t.lowLong (sat16 (2 * b)) && unsetOr t.highShort b && unsetOr t.highLong (sat16 (2 * b))

/-- A level whose short band reaches `DMAX`, unless it is degenerate (R164, R175 item 6). -/
def shortSaturates (enabled : Bool) (s l : Nat) : Bool :=
  s != l && (windows enabled s l).shortSup == dmax enabled

/-- The items of R175 with the condition of each, in order. Item 2 spares the level widths of a Manchester registration that
R163 accepts, and no others (log 10); `NORMAL_ROW` and `SPECIAL_ROW` are rows of the `TRIBIT_INV` template only (R172,
log 11). -/
def configItems (enabled : Bool) (p : Template) (t : TimingParams) : List (Nat × Bool) :=
  let man := t.family == .manchester
  let x := levelWidths t
  let len := (templateRows p).length
  [ (1, man && (t.prefixLow != 0 || t.prefixHigh != 0)),
    (2, !(man && manchesterWidths t) && (oneSet t.lowShort t.lowLong || oneSet t.highShort t.highLong) ||
          oneSet t.prefixLow t.prefixHigh),
    (3, !man && t.lowShort == 0 && t.lowLong == 0),
    (4, man && !manchesterWidths t),
    (5, t.bitCount == 0 || decide (255 < t.bitCount)),
    (6, shortSaturates enabled x.lowShort x.lowLong || shortSaturates enabled x.highShort x.highLong ||
          longMax enabled t == dmax enabled),
    (7, decide (len ≤ p.prefixRow.toNat) || decide (len ≤ p.payloadRow.toNat) ||
          (t.family == .tribitInv &&
            (decide (len ≤ p.normalRow.toNat) || decide (len ≤ p.specialRow.toNat)))) ]

/-- The first item that holds (60_exceptions.md R349). -/
def firstItem : List (Nat × Bool) → Option Nat
  | [] => none
  | (n, true) :: _ => some n
  | (_, false) :: rest => firstItem rest

/-- `build` (R160) from a template: the table, the parameter vector and the target, or the item number of the
configuration defect (R175). -/
def build (enabled : Bool) (p : Template) (t : TimingParams) :
    Except Nat (List Row × List Entry × Index8) :=
  match firstItem (configItems enabled p t) with
  | some n => .error n
  | none => .ok (templateRows p, paramVector enabled p t, BitVec.ofNat 8 t.bitCount)

end Sys2Proof.Machine
end

