-- ==== Sys2Proof/Machine/Readout.lean ====
section
/-!
DEFINITION. The accumulator's readout operations on a count and a value (42_bit_accumulator.md R195 to R200).
-/

namespace Sys2Proof.Machine

open Sys2Proof

/-- The frame of a decoder: `(cnt, V)` (45_host_interface.md R324). -/
def frameOf (d : Decoder) : Frame := { cnt := d.cnt, v := d.v }

/-- `byte_count` (R196). -/
def byteCountOf (cnt : Index8) : Nat := (cnt.toNat + 7) / 8

/-- `nth_byte` within range (R198): `V[8i+7 : 8i]`. -/
def byteAt (v i : Nat) : Byte := BitVec.ofNat 8 (v >>> (8 * i))

/-- The storage of an accumulator: `ceil(NBITS/8)` bytes, byte 0 the least significant (R191; 10_state.md R23). -/
def accBytes (d : Decoder) : List Byte := (List.range ((d.nbits.toNat + 7) / 8)).map (byteAt d.v)

/-- The recorded bytes, the most significant first (R199). -/
def frameBytes (f : Frame) : List Byte :=
  ((List.range (byteCountOf f.cnt)).map (byteAt f.v)).reverse

/-- An upper-case hexadecimal digit (R199). -/
def hexDigit (n : Nat) : Char := if n < 10 then Char.ofNat (48 + n) else Char.ofNat (55 + n)

/-- The two digits of a byte (R199). -/
def hexByte (b : Byte) : List Char := [hexDigit (b.toNat / 16), hexDigit (b.toNat % 16)]

/-- Bytes as text, joined by one space (R199). -/
def hexChars : List Byte → List Char
  | [] => []
  | [b] => hexByte b
  | b :: c :: rest => hexByte b ++ ' ' :: hexChars (c :: rest)

/-- The dump of a byte sequence: absent when there is no byte (R199). -/
def hexDump : List Byte → Option String
  | [] => none
  | b :: rest => some (String.ofList (hexChars (b :: rest)))

/-- `to_hex_string` (R199). -/
def toHexString (f : Frame) : Option String := hexDump (frameBytes f)

/-- `compare` (R200): by count first, then by value. -/
def compareFrames (a b : Frame) : Ordering :=
  if a.cnt < b.cnt then .lt
  else if b.cnt < a.cnt then .gt
  else if a.v < b.v then .lt
  else if b.v < a.v then .gt
  else .eq

end Sys2Proof.Machine
end

