-- ==== Sys2Proof/Machine/HostPort.lean ====
section
/-!
DEFINITION. The host port: registration, polling, dispatch, decoder reset, readout, register view, channel clear
(45_host_interface.md R310 to R326).
-/

namespace Sys2Proof.Machine

open Sys2Proof

/-! ## Polling and enabling -/

/-- `has_any_frame_ready` (R314). -/
def anyReady (s : State) : Bool := s.decs.any (·.ready)

/-- At least `CC_VOTES` of the last `CC_WINDOW` edges lie in `CC_RANGE` (R326). -/
def channelClear (s : State) : Bool :=
  decide (s.cfg.ccVotes ≤ ((s.host.ccTimes.take s.cfg.ccWindow).filter Config.ccInRange).length)

/-- The host runs only while `busy = 0` and `FATAL = 0` (R325, 60_exceptions.md R352). -/
def hostRuns (s : State) : Bool := !s.fault.fatal && !s.cons.busy

/-- Whether a waiting operation may return (R315, R326); every other operation returns at once. -/
def waitOver (s : State) : HostOp → Bool
  | .blockUntilFrameReady => anyReady s
  | .waitChannelClear _ => channelClear s
  | _ => true

/-- Whether an operation is enabled; `read_fault` always is (60_exceptions.md R353). -/
def hostEnabled (s : State) (op : HostOp) : Bool :=
  op == .readFault || (hostRuns s && waitOver s op)

/-! ## Registration -/

/-- A callback record at registration (R316). -/
def newCallback (c : CallbackSpec) : Callback :=
  { fn := c.fn, filter := c.filter, interval := c.interval, last := 0, fired := false }

/-- A decoder at registration: reset registers and a new accumulator (R311, 42_bit_accumulator.md R190). -/
def newDecoder (table : List Row) (params : List Entry) (nbits : Index8) (cbs : List CallbackSpec) : Decoder :=
  { table := table, params := params, nbits := nbits, status := 0, v := 0, cnt := 0, ready := false,
    callbacks := cbs.map newCallback }

/-- Append a decoder and return its handle (R311, 70_reset_and_hazards.md R385). -/
def appendDecoder (d : Decoder) (s : State) : State :=
  (s.setDecs (s.decs ++ [d])).setReply (.handle s.decs.length)

/-- `Fatal(CONFIG)`: `DEC` is the index the decoder would get, `ROW` is 0 (60_exceptions.md R341). -/
def configFatal (val : Entry) (s : State) : State :=
  raiseFatal .config (BitVec.ofNat 8 s.decs.length) 0 val s

/-- `register_decoder` through the builder with a given template (R311, R313). -/
def registerBuilt (p : Template) (t : TimingParams) (cb : Option CallbackSpec) (s : State) : State :=
  match build s.cfg.compress p t with
  | .error n => configFatal (BitVec.ofNat 16 n) s
  | .ok (table, params, nbits) =>
    if s.decs.length < 255 then appendDecoder (newDecoder table params nbits cb.toList) s
    else (configFatal (Config.freeConfigVal s.aux.freeCtr) s).bumpFree

/-- `register_table`'s ranges (R313, 00_scope.md R9, D47). -/
def tableInRange (table : List Row) (params : List Entry) (nbits : Nat) (s : State) : Bool :=
  decide (1 ≤ table.length) && decide (table.length ≤ 256) &&
  decide (1 ≤ params.length) && decide (params.length ≤ 256) &&
  decide (1 ≤ nbits) && decide (nbits ≤ 255) && decide (s.decs.length < 255)

/-- `register_table` (R311, R313): a range defect is `CONFIG` with `VAL = 8`. -/
def registerTable (table : List Row) (params : List Entry) (nbits : Nat) (cbs : List CallbackSpec) (s : State) :
    State :=
  if tableInRange table params nbits s then
    appendDecoder (newDecoder table params (BitVec.ofNat 8 nbits) cbs) s
  else configFatal 8 s

/-! ## Dispatch -/

/-- The filter test (R318). -/
def cbMatches (f : Frame) (cb : Callback) : Bool :=
  match cb.filter with
  | none => true
  | some g => compareFrames f g == .eq

/-- The retrigger test, modulo 2^32 (R319). -/
def cbDue (now : Stamp) (cb : Callback) : Bool := !cb.fired || decide (cb.interval ≤ now - cb.last)

/-- A callback fires when its filter matches and it is due (R317). -/
def cbFires (now : Stamp) (f : Frame) (cb : Callback) : Bool := cbMatches f cb && cbDue now cb

/-- The record after a dispatch: `last` and `fired` are written only when it fires (R317, R319). -/
def cbAfter (now : Stamp) (f : Frame) (cb : Callback) : Callback :=
  if cbFires now f cb then { cb with last := now, fired := true } else cb

/-- The invocations for one ready decoder, in registration order (R317). -/
def decoderCalls (now : Stamp) (k : Nat) (d : Decoder) : List Call :=
  (d.callbacks.filter (cbFires now (frameOf d))).map fun cb =>
    { dec := k, fn := cb.fn, frame := frameOf d }

/-- A ready decoder after a dispatch: its records updated, its registers reset (R317, R320). -/
def dispatchDecoder (now : Stamp) (d : Decoder) : Decoder :=
  if d.ready then
    decoderReset { d with callbacks := d.callbacks.map (cbAfter now (frameOf d)) }
  else d

/-- The invocations of a dispatch over the decoders from index `k`, in list order (R317). -/
def dispatchCalls (now : Stamp) : Nat → List Decoder → List Call
  | _, [] => []
  | k, d :: ds => (if d.ready then decoderCalls now k d else []) ++ dispatchCalls now (k + 1) ds

/-- `dispatch_ready_frames(now)` (R317). -/
def dispatchReady (now : Stamp) (s : State) : State :=
  (s.setDecs (s.decs.map (dispatchDecoder now))).setReply (.dispatched (dispatchCalls now 0 s.decs))

/-! ## Readout (R322, R323) -/

/-- A readout's value: the frame's while `ready`, otherwise the next free value (42_bit_accumulator.md R201; log 13). -/
def readoutReply (d : Decoder) (frame free : Reply) (s : State) : State :=
  if d.ready then s.setReply frame else (s.setReply free).bumpFree

/-- `Fatal(BIT_INDEX)`: `DEC` is the decoder, `ROW` is 0, `VAL` the index (60_exceptions.md R341, R346). -/
def bitIndexFatal (k : Nat) (i : Entry) (s : State) : State :=
  raiseFatal .bitIndex (BitVec.ofNat 8 k) 0 i s

/-- `bit_count` (42_bit_accumulator.md R195). -/
def readBitCount (d : Decoder) (s : State) : State :=
  readoutReply d (.count d.cnt) (.count (Config.freeCount s.aux.freeCtr)) s

/-- `byte_count` (42_bit_accumulator.md R196). -/
def readByteCount (d : Decoder) (s : State) : State :=
  readoutReply d (.count (BitVec.ofNat 8 (byteCountOf d.cnt))) (.count (Config.freeCount s.aux.freeCtr)) s

/-- `nth_bit` (42_bit_accumulator.md R197). -/
def readNthBit (k : Nat) (i : Entry) (d : Decoder) (s : State) : State :=
  if i.toNat < d.cnt.toNat then
    readoutReply d (.bit (d.v.testBit i.toNat)) (.bit (Config.freeBit s.aux.freeCtr)) s
  else bitIndexFatal k i s

/-- `nth_byte` (42_bit_accumulator.md R198). -/
def readNthByte (k : Nat) (i : Entry) (d : Decoder) (s : State) : State :=
  if i.toNat < byteCountOf d.cnt then
    readoutReply d (.byte (byteAt d.v i.toNat)) (.byte (Config.freeByte s.aux.freeCtr)) s
  else bitIndexFatal k i s

/-- `to_hex_string` (42_bit_accumulator.md R199). -/
def readHex (d : Decoder) (s : State) : State :=
  readoutReply d (.hex (toHexString (frameOf d))) (.hex (hexDump (Config.freeBytes s.aux.freeCtr))) s

/-- `compare` of the frame with a value (42_bit_accumulator.md R200). -/
def readCompare (f : Frame) (d : Decoder) (s : State) : State :=
  readoutReply d (.ordering (compareFrames (frameOf d) f)) (.ordering (Config.freeOrdering s.aux.freeCtr)) s

/-! ## The register view (10_state.md R40; log 23) -/

/-- DSTAT (10_state.md R40): the registers as they are, whether or not a frame is ready. -/
def dstatReply (d : Decoder) : Reply := .dstatReg d.status d.cnt d.ready

/-- FSTAT (10_state.md R40), what `read_fault` returns (60_exceptions.md R353). -/
def fstatReply (f : FaultRegs) : Reply := .faultRecord f.fatal f.code.number f.dec f.row f.val

/-- CFG (10_state.md R40). -/
def cfgReply (s : State) : Reply :=
  .cfgReg s.cfg.compress s.cfg.qcapLog2 (BitVec.ofNat 8 s.decs.length)

/-- DCFG (10_state.md R40). -/
def dcfgReply (d : Decoder) : Reply :=
  .dcfgReg (BitVec.ofNat 9 d.table.length) (BitVec.ofNat 9 d.params.length) d.nbits

/-! ## The operations -/

/-- Run `f` on the decoder of a handle. -/
def onDecoder (k : Nat) (f : Decoder → State) (s : State) : Host.Outcome State Fault Refusal :=
  match s.decs[k]? with
  | none => .refused .noSuchHandle
  | some d => .next (f d)

/-- A registration runs only before the first edge event (R312, U43; log 14). -/
def beforeFirstEdge (f : State → State) (s : State) : Host.Outcome State Fault Refusal :=
  if s.aux.started then .refused .registrationAfterFirstEdge else .next (f s)

/-- The effect of an enabled host operation. -/
def hostAct (op : HostOp) (s : State) : Host.Outcome State Fault Refusal :=
  match op with
  | .registerDecoder t cb => beforeFirstEdge (registerBuilt (Config.template t.family) t cb) s
  | .registerTable table params nbits cbs => beforeFirstEdge (registerTable table params nbits cbs) s
  | .hasAnyFrameReady => .next (s.setReply (.flag (anyReady s)))
  | .blockUntilFrameReady => .next (s.setReply .done)
  | .dispatchReadyFrames now => .next (dispatchReady now s)
  | .resetDecoder k => onDecoder k (fun d => (s.setDec k (decoderReset d)).setReply .done) s
  | .bitCount k => onDecoder k (fun d => readBitCount d s) s
  | .byteCount k => onDecoder k (fun d => readByteCount d s) s
  | .nthBit k i => onDecoder k (fun d => readNthBit k i d s) s
  | .nthByte k i => onDecoder k (fun d => readNthByte k i d s) s
  | .toHexString k => onDecoder k (fun d => readHex d s) s
  | .compareFrame k f => onDecoder k (fun d => readCompare f d s) s
  | .readFault => .next (s.setReply (fstatReply s.fault))
  | .waitChannelClear _ => .next (s.setReply (.channel (channelClear s)))
  | .readCfg => .next (s.setReply (cfgReply s))
  | .readDcfg k => onDecoder k (fun d => s.setReply (dcfgReply d)) s
  | .readDstat k => onDecoder k (fun d => s.setReply (dstatReply d)) s

/-- The host's turn: its oldest pending operation, if it is enabled (R325; log 5). -/
def hostTurn (s : State) : Host.Outcome State Fault Refusal :=
  match s.env.hostOps with
  | [] => .next s
  | op :: rest =>
    if hostEnabled s op then hostAct op (s.setEnv { s.env with hostOps := rest }) else .next s

/-- The expiry of the timeout of a pending `wait_channel_clear` (R326; log 19): it returns `timed_out`, or `clear` when
the condition holds already. -/
def timeoutTurn (s : State) : Host.Outcome State Fault Refusal :=
  match s.env.hostOps with
  | .waitChannelClear (some t) :: rest =>
    if hostRuns s then hostAct (.waitChannelClear (some t)) (s.setEnv { s.env with hostOps := rest })
    else .next s
  | _ => .next s

end Sys2Proof.Machine
end

