-- ==== Sys2Proof/Machine/Turns.lean ====
section
/-!
DEFINITION. One turn of the interleaving (20_memory.md R83; log 4), and the placing of a row word where the next step
fetches it (log 6).
-/

namespace Sys2Proof.Machine

open Sys2Proof

/-- An edge: pushed, or dropped while the block is halted (44_signal_queue.md R272, 60_exceptions.md R352). -/
def edgeTurn (ts : Stamp) (lvl : Bool) (s : State) : State :=
  if s.fault.fatal then s else push ts lvl s

/-- The action of one turn. -/
def runTurn (t : Turn) (s : State) : Host.Outcome State Fault Refusal :=
  match t with
  | .edge ts lvl => .next (edgeTurn ts lvl s)
  | .consumer => consumerTurn s
  | .host => hostTurn s
  | .readFault => .next (s.setReply (fstatReply s.fault))
  | .timeout => timeoutTurn s
  | .blockReset => .next (blockReset s)

/-- The turn taken when none is listed: the consumer while it has an action, otherwise the host (R284; log 4). -/
def defaultTurn (s : State) : Turn := if consumerEnabled s then .consumer else .host

/-- The turn the next step takes. -/
def nextTurn (s : State) : Turn :=
  match s.env.turns with
  | [] => defaultTurn s
  | t :: _ => t

/-- The state with its first turn, if any, taken off the list. -/
def popTurn (s : State) : State := s.setEnv { s.env with turns := s.env.turns.tail }

/-- A decoder that holds one row and nothing else, for a state with no decoder to feed. -/
def fetchDecoder (w : Row) : Decoder := newDecoder [w] [0] 8 []

/-- Put a row word at `status` of a decoder and thaw it. -/
def placeRow (w : Row) (d : Decoder) : Decoder :=
  { d with table := d.table.set d.status.toNat w, ready := false }

/-- Set the decoder list and the index so that decoder `cur` holds the row. -/
def placeDecoder (w : Row) (s : State) : State :=
  match s.decs[s.cons.cur]? with
  | some d => s.setDec s.cons.cur (placeRow w d)
  | none => (s.setDecs (s.decs ++ [fetchDecoder w])).setCons { s.cons with cur := s.decs.length }

/-- `s` with the row word `w` where the next step fetches: the consumer is at the head row of a burst of the decoder
`cur`, whose current row is `w`, the block is not halted and no other agent's turn comes first. -/
def fetchState (w : Row) (s : State) : State :=
  let p := placeDecoder w s
  { p with
    cons := { p.cons with busy := true, phase := .feed, first := true }
    fault := if p.fault.fatal then FaultRegs.clear else p.fault
    env := { p.env with turns := [] } }

end Sys2Proof.Machine
end

