-- ==== Sys2Proof/Machine/Step.lean ====
section
/-!
DEFINITION. One step of the block: one atomic action of one agent (20_memory.md R83).
-/

namespace Sys2Proof.Machine

open Sys2Proof

/-- One step: the next turn's action. -/
def step (s : State) : Host.Outcome State Fault Refusal := runTurn (nextTurn s) (popTurn s)

/-- `s` with the instruction whose bits are `w` (`nbits` of them, bit 0 the least significant bit of the row) where the
next step fetches (log 6). -/
def State.withFetchWord (s : State) (nbits w : Nat) : State :=
  fetchState (BitVec.ofNat 64 (w % 2 ^ nbits)) s

end Sys2Proof.Machine
end

