-- ==== Sys2Proof/Machine/Assembler.lean ====
section
/-!
DEFINITION. The spec's text and storage forms: pseudo-instructions (30_encoding.md R118), assembler text (R116, R117), the hexadecimal
form of a row (R119), the packing of a slot (R110), the configuration string (00_scope.md R3). No rule of the block reads them.
-/

namespace Sys2Proof.Machine

open Sys2Proof

/-- `JMP t` is `CHKB ZERO, MAX, t, t` (R118). -/
def jmp (t : Succ) : Instr := .chkb (.sen .zero) (.sen .max) t t

/-- `WLVL L, t, f` is `WAIT #L, #L, t, f` (R118). -/
def wlvl (l : Entry) (t f : Succ) : Instr := .wait (.lit l) (.lit l) t f

/-- `WANY t` is `WAIT ZERO, ONE, t, t` (R118). -/
def wany (t : Succ) : Instr := .wait (.sen .zero) (.sen .one) t t

/-- A decimal number. -/
def decText (n : Nat) : String := toString n

/-- A sentinel's name (R117); a reserved code, which the syntax does not name, is written as in vector V-F5. -/
def sentinelText : Sentinel → String
  | .dc => "DC"
  | .zero => "ZERO"
  | .one => "ONE"
  | .max => "MAX"
  | .nbm1 => "NBM1"
  | .reserved c => "SEN " ++ decText c.toNat

/-- A threshold operand as text (R117). -/
def operandText : Operand → String
  | .lit v => "#" ++ decText v.toNat
  | .par i => "p[" ++ decText i.toNat ++ "]"
  | .pind i => "p[p[" ++ decText i.toNat ++ "]]"
  | .sen s => sentinelText s

/-- A successor as text (R117). -/
def succText : Succ → String
  | .direct n => decText n.toNat
  | .indirect i => "@p[" ++ decText i.toNat ++ "]"

/-- A row that reads two operands and two successors, as text (R116). -/
def checkText (name : String) (min max : Operand) (nt nf : Succ) : String :=
  name ++ " " ++ operandText min ++ ", " ++ operandText max ++ ", " ++ succText nt ++ ", " ++ succText nf

/-- An instruction as text (R116). -/
def instrText : Instr → String
  | .wait min max nt nf => checkText "WAIT" min max nt nf
  | .term nt => "TERM " ++ succText nt
  | .chkd min max nt nf => checkText "CHKD" min max nt nf
  | .rstb nt => "RSTB " ++ succText nt
  | .add0 nt => "ADD0 " ++ succText nt
  | .add1 nt => "ADD1 " ++ succText nt
  | .chkb min max nt nf => checkText "CHKB" min max nt nf

/-- A line of a table listing: the row index, a colon, the instruction (R116). -/
def lineText (index : Nat) (i : Instr) : String := decText index ++ ": " ++ instrText i

/-- A queue slot as the number whose bit `DW` is the level and whose low `DW` bits are the code (R110). -/
def slotWord (c : BuildCfg) (e : Event) : Nat :=
  e.lvl.toNat * 2 ^ (if c.compress then 8 else 16) + e.d.toNat

/-- A row as 16 hexadecimal digits, the most significant first (R119). -/
def rowHex (w : Row) : String := String.ofList ((rowBytes w).flatMap hexByte)

/-- The configuration string `RF433CORE-C<c>-Q<N>-D<NDEC>` (00_scope.md R3). -/
def configString (s : State) : String :=
  "RF433CORE-C" ++ (if s.cfg.compress then "1" else "0") ++ "-Q" ++ decText s.cfg.qcap ++ "-D" ++
    decText s.decs.length

end Sys2Proof.Machine
end

