-- ==== Sys2Proof/Safety.lean ====
section
/-!
DEFINITION. What a safe run is, in the terms the statements use: the invariant of the block, the queue as a list of
events, and the spec's legality relations for operands, successors, rows and tables.
-/

namespace Sys2Proof.Machine

open Sys2Proof

/-! ## The queue as a list (10_state.md R31) -/

/-- The queue's storage has the one form of a ring of `n` slots, with both cursors in it (R30, R31). -/
abbrev Queue.wf (n : Nat) (q : Queue) : Prop := q.slots.length = n ∧ q.r < n ∧ q.w < n

/-- The number of events held: `(w - r) mod N` (R31). -/
def queueLen (n : Nat) (q : Queue) : Nat := (q.w + n - q.r) % n

/-- The events held, the oldest first. -/
def queueList (n : Nat) (q : Queue) : List Event :=
  (List.range (queueLen n q)).map fun j => (q.slots[(q.r + j) % n]?).getD default

/-- The queued events that no drain has fetched yet: the held entry, while it is still in the queue, is left out
(44_signal_queue.md R283). -/
def unfetched (s : State) : List Event :=
  if s.cons.holdValid then (queueList s.cfg.qcap s.q).tail else queueList s.cfg.qcap s.q

/-! ## The invariant -/

/-- A duration code fits the active mode (00_scope.md R9, `DW`). -/
def Event.fits (c : BuildCfg) (e : Event) : Prop := e.d.toNat ≤ dmax c.compress

/-- What holds of every registered decoder (00_scope.md R9, 10_state.md R22 to R24). -/
structure Decoder.Inv (d : Decoder) : Prop where
  len_pos : 1 ≤ d.table.length
  len_le : d.table.length ≤ 256
  nparam_pos : 1 ≤ d.params.length
  nparam_le : d.params.length ≤ 256
  nbits_pos : 1 ≤ d.nbits.toNat
  status_lt : d.status.toNat < d.table.length
  cnt_le : d.cnt.toNat ≤ d.nbits.toNat
  v_lt : d.v < 2 ^ d.cnt.toNat

/-- The invariant of the block (10_state.md R22 to R24, R30, R31, R34 to R38). -/
structure State.Inv (s : State) : Prop where
  /-- the capacity is at least 2 (00_scope.md R9) -/
  qcap : 1 ≤ s.cfg.qcapLog2.toNat
  /-- the ring's form (R30, R31) -/
  queue : s.q.wf s.cfg.qcap
  /-- every slot holds a code of the active mode (40_compressor.md R149) -/
  slotsFit : ∀ e ∈ s.q.slots, e.fits s.cfg
  /-- 00_scope.md R9, D47 -/
  ndec : s.decs.length ≤ 255
  decs : ∀ d ∈ s.decs, d.Inv
  /-- R37, first half -/
  guard : s.cons.busy = false ↔ s.cons.phase = .idle
  /-- R37, second half: the held entry is the queue entry at `Q.r` -/
  held : s.cons.holdValid = true → s.q.r ≠ s.q.w ∧ s.q.slots[s.q.r]? = some s.cons.hold
  /-- R35: set by fetch, cleared by retire -/
  heldPhase : s.cons.holdValid = true → s.cons.phase = .feed ∨ s.cons.phase = .retire
  holdFits : s.cons.hold.fits s.cfg
  /-- R36: `cur` is 0 to `NDEC` -/
  cur : s.cons.phase = .feed → s.cons.cur ≤ s.decs.length
  /-- a decoder in the middle of a burst is not frozen (43_interpreter.md R227) -/
  midBurst : s.cons.phase = .feed → s.cons.first = false →
    ∃ d, s.decs[s.cons.cur]? = some d ∧ d.ready = false
  /-- R38: the fault registers are clear while `FATAL` is 0 -/
  noFault : s.fault.fatal = false → s.fault = FaultRegs.clear
  /-- R38: `CODE` 0 means no fault -/
  isFault : s.fault.fatal = true → s.fault.code ≠ .none

/-! ## Legality (43_interpreter.md R229 to R233, R238) -/

/-- `v` is the value of a threshold operand (R229, R230). -/
def OperandIs (d : Decoder) (o : Operand) (v : Entry) : Prop :=
  match o with
  | .lit x => v = x
  | .par i => d.params[i.toNat]? = some v
  | .pind i => ∃ j, d.params[i.toNat]? = some j ∧ d.params[j.toNat]? = some v
  | .sen .zero => v = 0
  | .sen .one => v = 1
  | .sen .max => v = 0xFFFF
  | .sen .nbm1 => v = d.nbits.setWidth 16 - 1
  | .sen .dc => False
  | .sen (.reserved _) => False

/-- A threshold operand is illegal and `x` is the offending value (R224, R229, R230; 60_exceptions.md R343). -/
def OperandBad (d : Decoder) (o : Operand) (x : Entry) : Prop :=
  match o with
  | .lit _ => False
  | .par i => d.params.length ≤ i.toNat ∧ x = i
  | .pind i => (d.params.length ≤ i.toNat ∧ x = i) ∨
      ∃ j, d.params[i.toNat]? = some j ∧ d.params.length ≤ j.toNat ∧ x = j
  | .sen .dc => x = 0
  | .sen (.reserved c) => x = c
  | .sen .zero => False
  | .sen .one => False
  | .sen .max => False
  | .sen .nbm1 => False

/-- `n` is the row index a successor field names, within the table (R232, R233). -/
def SuccIs (d : Decoder) (t : Succ) (n : Index8) : Prop :=
  match t with
  | .direct m => n = m ∧ m.toNat < d.table.length
  | .indirect i => ∃ p, d.params[i.toNat]? = some p ∧ p.toNat < d.table.length ∧ n = p.setWidth 8

/-- A successor field is illegal; the code and the value its resolution raises (R223 items 5 and 6, R224). -/
def SuccBad (d : Decoder) (t : Succ) (code : FaultCode) (x : Entry) : Prop :=
  match t with
  | .direct m => d.table.length ≤ m.toNat ∧ code = .badSuccessor ∧ x = m.setWidth 16
  | .indirect i =>
    (d.params.length ≤ i.toNat ∧ code = .badOperand ∧ x = i.setWidth 16) ∨
    ∃ p, d.params[i.toNat]? = some p ∧ d.table.length ≤ p.toNat ∧ code = .badSuccessor ∧ x = p

/-- Every operand and successor field an instruction reads is legal (R238). -/
def InstrLegal (d : Decoder) (i : Instr) : Prop :=
  match i with
  | .wait min max nt nf | .chkd min max nt nf | .chkb min max nt nf =>
    (∃ v, OperandIs d min v) ∧ (∃ v, OperandIs d max v) ∧ (∃ n, SuccIs d nt n) ∧ (∃ n, SuccIs d nf n)
  | .term nt | .rstb nt | .add0 nt | .add1 nt => ∃ n, SuccIs d nt n

/-- A decoder's table is well formed with its parameter vector and target (R238). -/
def TableLegal (d : Decoder) : Prop :=
  ∀ w ∈ d.table, ∃ i, decode w = .ok i ∧ InstrLegal d i

/-! ## The builder (41_table_builder.md R163, R175, R177) -/

/-- The widths of a Manchester registration are those R163 accepts. -/
def ManchesterWidthsOk (t : TimingParams) : Prop :=
  t.lowShort ≠ 0 ∧ (t.lowLong = 0 ∨ t.lowLong.toNat = min (2 * t.lowShort.toNat) 65535) ∧
  (t.highShort = 0 ∨ t.highShort = t.lowShort) ∧ (t.highLong = 0 ∨ t.highLong.toNat = min (2 * t.lowShort.toNat) 65535)

/-- Exactly one of two widths is nonzero. -/
def OneNonzero (a b : Entry) : Prop := (a ≠ 0 ∧ b = 0) ∨ (a = 0 ∧ b ≠ 0)

/-- Item `n` of R175 holds of a registration from the template `p`. Item 2 spares the level widths that R163 accepts of
Manchester (log 10); `NORMAL_ROW` and `SPECIAL_ROW` are the `TRIBIT_INV` template's (log 11). -/
def ConfigItem (enabled : Bool) (p : Template) (t : TimingParams) (n : Nat) : Prop :=
  let x := levelWidths t
  let saturates := fun s l : Nat => s ≠ l ∧ (windows enabled s l).shortSup = dmax enabled
  let len := (templateRows p).length
  match n with
  | 1 => t.family = .manchester ∧ (t.prefixLow ≠ 0 ∨ t.prefixHigh ≠ 0)
  | 2 => (¬ (t.family = .manchester ∧ ManchesterWidthsOk t) ∧
          (OneNonzero t.lowShort t.lowLong ∨ OneNonzero t.highShort t.highLong)) ∨ OneNonzero t.prefixLow t.prefixHigh
  | 3 => t.family ≠ .manchester ∧ t.lowShort = 0 ∧ t.lowLong = 0
  | 4 => t.family = .manchester ∧ ¬ ManchesterWidthsOk t
  | 5 => t.bitCount = 0 ∨ 255 < t.bitCount
  | 6 => saturates x.lowShort x.lowLong ∨ saturates x.highShort x.highLong ∨
          max (lowWindows enabled t).longSup (highWindows enabled t).longSup = dmax enabled
  | 7 => len ≤ p.prefixRow.toNat ∨ len ≤ p.payloadRow.toNat ∨
          (t.family = .tribitInv ∧ (len ≤ p.normalRow.toNat ∨ len ≤ p.specialRow.toNat))
  | _ => False

/-- The successor fields an instruction reads. -/
def succsOf : Instr → List Succ
  | .wait _ _ nt nf | .chkd _ _ nt nf | .chkb _ _ nt nf => [nt, nf]
  | .term nt | .rstb nt | .add0 nt | .add1 nt => [nt]

/-- The premise of R177 on a template: every direct successor of a row is a row of the table, and every indirect one goes
through a dispatch slot, 15 or 16, which are the slots R177 speaks of (log 34). -/
def TemplateBounded (p : Template) : Prop :=
  ∀ w ∈ templateRows p, ∀ i, decode w = .ok i → ∀ t ∈ succsOf i,
    match t with
    | .direct m => m.toNat < (templateRows p).length
    | .indirect j => j = 15 ∨ j = 16

/-- The outcome that only records a fatal defect: the fault registers written, nothing else (60_exceptions.md R350, R351). -/
def recorded (c : FaultCode) (dec row : Index8) (x : Entry) (s : State) : Host.Outcome State Fault Refusal :=
  .next { s with fault := { fatal := true, code := c, dec := dec, row := row, val := x } }

/-- The same for a row of the decoder `d` being fed: `DEC` is its index, `ROW` its `status` (43_interpreter.md R224). -/
def rowRaises (s : State) (d : Decoder) (c : FaultCode) (x : Entry) : Host.Outcome State Fault Refusal :=
  recorded c (BitVec.ofNat 8 s.cons.cur) d.status x s

/-! ## The private copy (41_table_builder.md R174) -/

/-- Every `p[i]` replaced by `#P[i]`, every `p[p[i]]` by `#P[P[i]]`. -/
def inlineOperand (d : Decoder) : Operand → Operand
  | .lit v => .lit v
  | .par i => .lit (d.params.getD i.toNat 0)
  | .pind i => .lit (d.params.getD (d.params.getD i.toNat 0).toNat 0)
  | .sen x => .sen x

/-- Every `@p[i]` replaced by the direct successor `P[i]`. -/
def inlineSucc (d : Decoder) : Succ → Succ
  | .direct n => .direct n
  | .indirect i => .direct ((d.params.getD i.toNat 0).setWidth 8)

/-- The row of the private copy. -/
def inlineInstr (d : Decoder) : Instr → Instr
  | .wait min max nt nf => .wait (inlineOperand d min) (inlineOperand d max) (inlineSucc d nt) (inlineSucc d nf)
  | .term nt => .term (inlineSucc d nt)
  | .chkd min max nt nf => .chkd (inlineOperand d min) (inlineOperand d max) (inlineSucc d nt) (inlineSucc d nf)
  | .rstb nt => .rstb (inlineSucc d nt)
  | .add0 nt => .add0 (inlineSucc d nt)
  | .add1 nt => .add1 (inlineSucc d nt)
  | .chkb min max nt nf => .chkb (inlineOperand d min) (inlineOperand d max) (inlineSucc d nt) (inlineSucc d nf)

/-! ## What one agent may not touch -/

/-- The configuration of a decoder: table, parameter vector, target (10_state.md R20, R27 to R29). -/
def Decoder.config (d : Decoder) : List Row × List Entry × Index8 := (d.table, d.params, d.nbits)

end Sys2Proof.Machine
end

