-- ==== Sys2Proof/Certificates/Slice0/Obligations.lean ====
section
/-!
DEFINITION. The statements for the provers. Each docstring names the rule of spec/ it formalises.
Legality relations (`OperandIs`, `OperandBad`, `SuccIs`, `SuccBad`, `InstrLegal`, `TableLegal`), the invariant `State.Inv` and the
queue as a list (`queueList`, `unfetched`) are those of Safety.lean.
-/

open Sys2Proof Sys2Proof.Machine

/-! ## Encoding -/

/-- The words of 30_encoding.md §7 decode to the rows they stand for (a sanity statement). -/
def Obligations.SpecWordsDecode : Prop :=
  decode 0x0000000000010000 = .ok (.wait (.lit 0) (.lit 0) (.direct 1) (.direct 0)) ∧
  decode 0x0F000100020F0080 = .ok (.wait (.sen .zero) (.sen .one) (.indirect 15) (.direct 0)) ∧
  decode 0x27000900030F0080 = .ok (.chkd (.par 9) (.sen .max) (.indirect 15) (.direct 0)) ∧
  decode 0x2600010010020300 = .ok (.chkd (.par 1) (.pind 16) (.direct 2) (.direct 3)) ∧
  decode 0x3F00000000030000 = .ok (.rstb (.direct 3)) ∧
  decode 0x4F000000000C0000 = .ok (.add0 (.direct 12)) ∧
  decode 0x5F000000000C0000 = .ok (.add1 (.direct 12)) ∧
  decode 0x6F00010004030D00 = .ok (.chkb (.sen .zero) (.sen .nbm1) (.direct 3) (.direct 13)) ∧
  decode 0x1F000000000D0000 = .ok (.term (.direct 13)) ∧
  decode 0x2F00000003000000 = .ok (.chkd (.sen .dc) (.sen .max) (.direct 0) (.direct 0))

/-- Decoding an encoded well-formed instruction gives it back, for every operation, operand kind, sentinel and successor form
(30_encoding.md R100 to R108, R120). -/
def Obligations.DecodeOfEncode : Prop :=
  ∀ i : Instr, i.wf = true → decode (encode i) = .ok i

/-- The other direction, with R120: a row that reads all its fields is encoded back to the same word; a row that reads only `NT`
keeps `OP`, `NT`, `IT`, and its unread fields are the assembler's. `RES` is 0. -/
def Obligations.EncodeOfDecode : Prop :=
  ∀ (w : Row) (i : Instr), decode w = .ok i →
    rowRes (encode i) = 0 ∧
    ((rowOp w = 0 ∨ rowOp w = 2 ∨ rowOp w = 6) → encode i = w) ∧
    ((rowOp w = 1 ∨ rowOp w = 3 ∨ rowOp w = 4 ∨ rowOp w = 5) →
      rowOp (encode i) = rowOp w ∧ rowNt (encode i) = rowNt w ∧ rowIt (encode i) = rowIt w ∧
      rowKmin (encode i) = 3 ∧ rowKmax (encode i) = 3 ∧ rowVmin (encode i) = 0 ∧ rowVmax (encode i) = 0 ∧
      rowNf (encode i) = 0 ∧ rowIf (encode i) = 0)

/-- 30_encoding.md R112: `OP` 0 to 6 with zero reserved bits selects the operation, by mask and match, and no other word
decodes. -/
def Obligations.MaskSelectsOperation : Prop :=
  (∀ (w : Row) (op : BitVec 4), op.toNat ≤ 6 →
    w &&& 0xF00000000000003F#64 = op.setWidth 64 <<< 60 → ∃ i, decode w = .ok i ∧ i.opcode = op) ∧
  (∀ (w : Row) (i : Instr), decode w = .ok i →
    w &&& 0xF00000000000003F#64 = i.opcode.setWidth 64 <<< 60 ∧ i.opcode = rowOp w ∧ i.opcode.toNat ≤ 6)

/-- 30_encoding.md R121 and 20_memory.md R74: a table image has 8 bytes per row, the most significant byte first, and reads
back as the table. -/
def Obligations.TableImageRoundTrip : Prop :=
  (∀ ws : List Row, (tableImage ws).length = 8 * ws.length ∧ parseImage ws.length (tableImage ws) = some ws) ∧
  (∀ (w : Row) (j : Nat), j < 8 → (rowBytes w)[j]? = some (BitVec.ofNat 8 (w.toNat / 2 ^ (8 * (7 - j)))))

/-- The pseudo-instruction `JMP t` always takes `t` (30_encoding.md R118, derived there from R246 and R106). -/
def Obligations.JmpAlwaysTaken : Prop :=
  ∀ (s : State) (d : Decoder) (t : Succ) (n : Index8), s.decs[s.cons.cur]? = some d → SuccIs d t n →
    exec (jmp t) s = .next (s.setDec s.cons.cur { d with status := n })

/-! ## The step and the consumer -/

/-- One step of a feed that evaluates a row runs exactly the decoded instruction, on the state with the turn taken off, and
then moves the consumer on (44_signal_queue.md R278): not at all after a defect, to the next decoder after TERM, otherwise
only `first` is cleared. -/
def Obligations.StepRunsDecodedRow : Prop :=
  ∀ (s : State) (d : Decoder) (w : Row) (i : Instr),
    nextTurn s = .consumer → s.fault.fatal = false → s.cons.phase = .feed →
    s.decs[s.cons.cur]? = some d → (s.cons.first = true → d.ready = false) →
    d.table[d.status.toNat]? = some w → (s.cons.first = false → rowOp w ≠ 0) → decode w = .ok i →
    (∀ t, exec i (popTurn s) = .next t → step s = .next
      (if t.fault.fatal = true then t
       else if isTerm i = true then t.setCons { t.cons with cur := t.cons.cur + 1, first := true }
       else t.setCons { t.cons with first := false })) ∧
    (∃ t, exec i (popTurn s) = .next t)

/-- 60_exceptions.md R342: a row with `OP` 7 to 15 or nonzero reserved bits raises `BAD_OPCODE` when it is evaluated, with the
`OP` field as `VAL`, and commits nothing else. -/
def Obligations.IllegalRowRaisesBadOpcode : Prop :=
  ∀ (s : State) (d : Decoder) (w : Row),
    nextTurn s = .consumer → s.fault.fatal = false → s.cons.phase = .feed →
    s.decs[s.cons.cur]? = some d → (s.cons.first = true → d.ready = false) →
    d.table[d.status.toNat]? = some w → (s.cons.first = false → rowOp w ≠ 0) →
    (7 ≤ (rowOp w).toNat ∨ rowRes w ≠ 0) →
    step s = rowRaises (popTurn s) d .badOpcode ((rowOp w).setWidth 16)

/-- A `WAIT` row reached after the head row is not evaluated, whatever its other bits are: the burst ends and the next decoder
is fed (43_interpreter.md R227, R222; 90_conflicts.md C5, C8). -/
def Obligations.LaterWaitEndsBurst : Prop :=
  ∀ (s : State) (d : Decoder) (w : Row),
    nextTurn s = .consumer → s.fault.fatal = false → s.cons.phase = .feed →
    s.decs[s.cons.cur]? = some d → d.table[d.status.toNat]? = some w →
    s.cons.first = false → rowOp w = 0 →
    step s = .next ((popTurn s).setCons { s.cons with cur := s.cons.cur + 1, first := true })

/-- 43_interpreter.md R226: the burst of a decoder whose frame is ready is empty. With no decoder left the feed ends
(44_signal_queue.md R278). -/
def Obligations.FrozenDecoderSkipsEvent : Prop :=
  ∀ s : State, nextTurn s = .consumer → s.fault.fatal = false → s.cons.phase = .feed →
    (∀ d, s.decs[s.cons.cur]? = some d → s.cons.first = true → d.ready = true →
      step s = .next ((popTurn s).setCons { s.cons with cur := s.cons.cur + 1, first := true })) ∧
    (s.cons.cur = s.decs.length → step s = .next ((popTurn s).setCons { s.cons with phase := .retire }))

/-- 44_signal_queue.md R276: the start is a test-and-set, enabled iff `busy = 0` and the queue is not empty. -/
def Obligations.StartIsGuarded : Prop :=
  ∀ s : State, nextTurn s = .consumer → s.fault.fatal = false → s.cons.phase = .idle →
    (s.cons.busy = false → s.q.r ≠ s.q.w →
      step s = .next ((popTurn s).setCons { s.cons with busy := true, phase := .fetch })) ∧
    ((s.cons.busy = true ∨ s.q.r = s.q.w) → step s = .next (popTurn s))

/-- 44_signal_queue.md R277: fetch leaves the drain when the queue is empty, in the same action as the test, and otherwise copies
the entry at `r` without moving `r`. -/
def Obligations.FetchTakesOldest : Prop :=
  ∀ s : State, nextTurn s = .consumer → s.fault.fatal = false → s.cons.phase = .fetch →
    (s.q.r = s.q.w → step s = .next ((popTurn s).setCons { s.cons with busy := false, phase := .idle })) ∧
    (∀ e, s.q.r ≠ s.q.w → s.q.slots[s.q.r]? = some e → step s = .next ((popTurn s).setCons
      { s.cons with hold := e, holdValid := true, cur := 0, first := true, phase := .feed }))

/-- 44_signal_queue.md R279: retire advances `r` modulo `N` only while the held entry is still in the queue. -/
def Obligations.RetireFreesSlot : Prop :=
  ∀ s : State, nextTurn s = .consumer → s.fault.fatal = false → s.cons.phase = .retire →
    step s = .next (((popTurn s).setQ
      (if s.cons.holdValid = true then { s.q with r := (s.q.r + 1) % s.cfg.qcap } else s.q)).setCons
      { s.cons with holdValid := false, phase := .fetch })

/-! ## The seven operations -/

/-- 43_interpreter.md R240: `WAIT`, its branch, its defects in the order of R223, each committing nothing else. -/
def Obligations.WaitRow : Prop :=
  ∀ (s : State) (d : Decoder) (min max : Operand) (nt nf : Succ), s.decs[s.cons.cur]? = some d →
    let lvl := if s.cons.hold.lvl = true then 1 else 0
    (∀ x, OperandBad d min x → exec (.wait min max nt nf) s = rowRaises s d .badOperand x) ∧
    (∀ lo x, OperandIs d min lo → OperandBad d max x → exec (.wait min max nt nf) s = rowRaises s d .badOperand x) ∧
    (∀ lo hi, OperandIs d min lo → OperandIs d max hi →
      (∀ n, SuccIs d (if lo.toNat ≤ lvl ∧ lvl ≤ hi.toNat then nt else nf) n →
        exec (.wait min max nt nf) s = .next (s.setDec s.cons.cur { d with status := n })) ∧
      (∀ c x, SuccBad d (if lo.toNat ≤ lvl ∧ lvl ≤ hi.toNat then nt else nf) c x →
        exec (.wait min max nt nf) s = rowRaises s d c x))

/-- 43_interpreter.md R242: `CHKD`. -/
def Obligations.ChkdRow : Prop :=
  ∀ (s : State) (d : Decoder) (min max : Operand) (nt nf : Succ), s.decs[s.cons.cur]? = some d →
    let dur := s.cons.hold.d.toNat
    (∀ x, OperandBad d min x → exec (.chkd min max nt nf) s = rowRaises s d .badOperand x) ∧
    (∀ lo x, OperandIs d min lo → OperandBad d max x → exec (.chkd min max nt nf) s = rowRaises s d .badOperand x) ∧
    (∀ lo hi, OperandIs d min lo → OperandIs d max hi →
      (∀ n, SuccIs d (if lo.toNat ≤ dur ∧ dur ≤ hi.toNat then nt else nf) n →
        exec (.chkd min max nt nf) s = .next (s.setDec s.cons.cur { d with status := n })) ∧
      (∀ c x, SuccBad d (if lo.toNat ≤ dur ∧ dur ≤ hi.toNat then nt else nf) c x →
        exec (.chkd min max nt nf) s = rowRaises s d c x))

/-- 43_interpreter.md R246: `CHKB`. -/
def Obligations.ChkbRow : Prop :=
  ∀ (s : State) (d : Decoder) (min max : Operand) (nt nf : Succ), s.decs[s.cons.cur]? = some d →
    let cnt := d.cnt.toNat
    (∀ x, OperandBad d min x → exec (.chkb min max nt nf) s = rowRaises s d .badOperand x) ∧
    (∀ lo x, OperandIs d min lo → OperandBad d max x → exec (.chkb min max nt nf) s = rowRaises s d .badOperand x) ∧
    (∀ lo hi, OperandIs d min lo → OperandIs d max hi →
      (∀ n, SuccIs d (if lo.toNat ≤ cnt ∧ cnt ≤ hi.toNat then nt else nf) n →
        exec (.chkb min max nt nf) s = .next (s.setDec s.cons.cur { d with status := n })) ∧
      (∀ c x, SuccBad d (if lo.toNat ≤ cnt ∧ cnt ≤ hi.toNat then nt else nf) c x →
        exec (.chkb min max nt nf) s = rowRaises s d c x))

/-- 43_interpreter.md R241: `TERM` commits the successor and `ready` together; a defect of the successor commits neither. -/
def Obligations.TermRow : Prop :=
  ∀ (s : State) (d : Decoder) (nt : Succ), s.decs[s.cons.cur]? = some d →
    (∀ n, SuccIs d nt n →
      exec (.term nt) s = .next (s.setDec s.cons.cur { d with status := n, ready := true })) ∧
    (∀ c x, SuccBad d nt c x → exec (.term nt) s = rowRaises s d c x)

/-- 43_interpreter.md R243: `RSTB` clears the value and the count, and leaves `ready`. -/
def Obligations.RstbRow : Prop :=
  ∀ (s : State) (d : Decoder) (nt : Succ), s.decs[s.cons.cur]? = some d →
    (∀ n, SuccIs d nt n →
      exec (.rstb nt) s = .next (s.setDec s.cons.cur { d with status := n, v := 0, cnt := 0 })) ∧
    (∀ c x, SuccBad d nt c x → exec (.rstb nt) s = rowRaises s d c x)

/-- 43_interpreter.md R244: `ADD0`; an append to a full accumulator raises `BIT_OVERFLOW` before the successor is looked at. -/
def Obligations.Add0Row : Prop :=
  ∀ (s : State) (d : Decoder) (nt : Succ), s.decs[s.cons.cur]? = some d →
    (d.cnt = d.nbits → exec (.add0 nt) s = rowRaises s d .bitOverflow (d.cnt.setWidth 16)) ∧
    (d.cnt ≠ d.nbits →
      (∀ n, SuccIs d nt n → exec (.add0 nt) s =
        .next (s.setDec s.cons.cur { d with status := n, v := 2 * d.v, cnt := d.cnt + 1 })) ∧
      (∀ c x, SuccBad d nt c x → exec (.add0 nt) s = rowRaises s d c x))

/-- 43_interpreter.md R245: `ADD1`. -/
def Obligations.Add1Row : Prop :=
  ∀ (s : State) (d : Decoder) (nt : Succ), s.decs[s.cons.cur]? = some d →
    (d.cnt = d.nbits → exec (.add1 nt) s = rowRaises s d .bitOverflow (d.cnt.setWidth 16)) ∧
    (d.cnt ≠ d.nbits →
      (∀ n, SuccIs d nt n → exec (.add1 nt) s =
        .next (s.setDec s.cons.cur { d with status := n, v := 2 * d.v + 1, cnt := d.cnt + 1 })) ∧
      (∀ c x, SuccBad d nt c x → exec (.add1 nt) s = rowRaises s d c x))

/-! ## Frames -/

/-- The frame of WAIT, CHKD and CHKB: nothing but `status` of the decoder being fed, or the fault record, changes. -/
def Obligations.CheckRowFrame : Prop :=
  ∀ (i : Instr) (s t : State),
    (∃ min max nt nf, i = .wait min max nt nf ∨ i = .chkd min max nt nf ∨ i = .chkb min max nt nf) →
    exec i s = .next t →
    t.cfg = s.cfg ∧ t.q = s.q ∧ t.prod = s.prod ∧ t.cons = s.cons ∧ t.host = s.host ∧ t.env = s.env ∧
    t.aux = s.aux ∧ t.decs.length = s.decs.length ∧ (∀ k, k ≠ s.cons.cur → t.decs[k]? = s.decs[k]?) ∧
    (∀ d d' : Decoder, s.decs[s.cons.cur]? = some d → t.decs[s.cons.cur]? = some d' →
      d'.table = d.table ∧ d'.params = d.params ∧ d'.nbits = d.nbits ∧ d'.callbacks = d.callbacks ∧
      d'.v = d.v ∧ d'.cnt = d.cnt ∧ d'.ready = d.ready) ∧
    (t.fault = s.fault ∨ t.decs = s.decs)

/-- The frame of RSTB, ADD0 and ADD1: nothing but `status`, the value and the count of the decoder being fed, or the fault
record, changes; `ready` does not. -/
def Obligations.AccumulatorRowFrame : Prop :=
  ∀ (i : Instr) (s t : State), (∃ nt, i = .rstb nt ∨ i = .add0 nt ∨ i = .add1 nt) → exec i s = .next t →
    t.cfg = s.cfg ∧ t.q = s.q ∧ t.prod = s.prod ∧ t.cons = s.cons ∧ t.host = s.host ∧ t.env = s.env ∧
    t.aux = s.aux ∧ t.decs.length = s.decs.length ∧ (∀ k, k ≠ s.cons.cur → t.decs[k]? = s.decs[k]?) ∧
    (∀ d d' : Decoder, s.decs[s.cons.cur]? = some d → t.decs[s.cons.cur]? = some d' →
      d'.table = d.table ∧ d'.params = d.params ∧ d'.nbits = d.nbits ∧ d'.callbacks = d.callbacks ∧
      d'.ready = d.ready) ∧
    (t.fault = s.fault ∨ t.decs = s.decs)

/-- The frame of TERM: nothing but `status` and `ready` of the decoder being fed, or the fault record, changes. -/
def Obligations.TermFrame : Prop :=
  ∀ (nt : Succ) (s t : State), exec (.term nt) s = .next t →
    t.cfg = s.cfg ∧ t.q = s.q ∧ t.prod = s.prod ∧ t.cons = s.cons ∧ t.host = s.host ∧ t.env = s.env ∧
    t.aux = s.aux ∧ t.decs.length = s.decs.length ∧ (∀ k, k ≠ s.cons.cur → t.decs[k]? = s.decs[k]?) ∧
    (∀ d d' : Decoder, s.decs[s.cons.cur]? = some d → t.decs[s.cons.cur]? = some d' →
      d'.table = d.table ∧ d'.params = d.params ∧ d'.nbits = d.nbits ∧ d'.callbacks = d.callbacks ∧
      d'.v = d.v ∧ d'.cnt = d.cnt) ∧
    (t.fault = s.fault ∨ t.decs = s.decs)

/-! ## Tables -/

/-- 43_interpreter.md R238: with well-formed tables a consumer step raises no `BAD_OPCODE`, `BAD_OPERAND` or `BAD_SUCCESSOR`, and
the tables stay well formed. -/
def Obligations.LegalTablesRaiseOnlyOverflow : Prop :=
  ∀ s t : State, s.Inv → (∀ d ∈ s.decs, TableLegal d) → nextTurn s = .consumer → s.fault.fatal = false →
    step s = .next t →
    (t.fault.fatal = true → t.fault.code = .bitOverflow) ∧ (∀ d ∈ t.decs, TableLegal d)

/-- 41_table_builder.md R174: the row of the private copy, with every parameter reference replaced by its value, does what the
shared row does, when its indices are legal. -/
def Obligations.PrivateCopyRunsAlike : Prop :=
  ∀ (i : Instr) (s : State) (d : Decoder), s.decs[s.cons.cur]? = some d → InstrLegal d i →
    exec (inlineInstr d i) s = exec i s

/-! ## The accumulator and its readout -/

/-- 42_bit_accumulator.md R193: `n` appends to an empty accumulator record `n` bits, the first one the most significant; the
append that fills it succeeds and the next one raises `BIT_OVERFLOW`. -/
def Obligations.AppendsBuildValue : Prop :=
  ∀ (d : Decoder) (bs : List Bool), d.v = 0 → d.cnt = 0 → bs.length ≤ d.nbits.toNat →
    ∃ d', bs.foldlM (fun a b => accAddBit b a) d = .ok d' ∧ d' = { d with v := d'.v, cnt := d'.cnt } ∧
      d'.cnt.toNat = bs.length ∧ d'.v < 2 ^ bs.length ∧
      (∀ (i : Nat) (b : Bool), bs[i]? = some b → d'.v.testBit (bs.length - 1 - i) = b) ∧
      (bs.length = d.nbits.toNat → ∀ b, accAddBit b d' =
        .error { code := .bitOverflow, val := d'.cnt.setWidth 16 })

/-- 42_bit_accumulator.md R195 to R198 and R200: readouts of a ready frame within its range return its count, its bits, its bytes
and its comparison with a given frame, and change nothing but the reply. -/
def Obligations.ReadoutOfReadyFrame : Prop :=
  ∀ (s : State) (k : Nat) (d : Decoder), s.decs[k]? = some d → d.ready = true →
    hostAct (.bitCount k) s = .next (s.setReply (.count d.cnt)) ∧
    hostAct (.byteCount k) s = .next (s.setReply (.count (BitVec.ofNat 8 ((d.cnt.toNat + 7) / 8)))) ∧
    (∀ i : Entry, i.toNat < d.cnt.toNat →
      hostAct (.nthBit k i) s = .next (s.setReply (.bit (decide (d.v / 2 ^ i.toNat % 2 = 1))))) ∧
    (∀ i : Entry, i.toNat < (d.cnt.toNat + 7) / 8 →
      hostAct (.nthByte k i) s = .next (s.setReply (.byte (BitVec.ofNat 8 (d.v / 256 ^ i.toNat))))) ∧
    (∀ f : Frame, hostAct (.compareFrame k f) s = .next (s.setReply (.ordering
      (if d.cnt.toNat < f.cnt.toNat then .lt else if f.cnt.toNat < d.cnt.toNat then .gt
       else if d.v < f.v then .lt else if f.v < d.v then .gt else .eq))))

/-- 60_exceptions.md R346: a readout index outside the recorded range raises `BIT_INDEX` with the decoder, row 0 and the index,
whether or not the decoder is ready (93_implementation_defined.md U20). -/
def Obligations.ReadoutOutOfRange : Prop :=
  ∀ (s : State) (k : Nat) (d : Decoder) (i : Entry), s.decs[k]? = some d →
    (d.cnt.toNat ≤ i.toNat → hostAct (.nthBit k i) s = recorded .bitIndex (BitVec.ofNat 8 k) 0 i s) ∧
    ((d.cnt.toNat + 7) / 8 ≤ i.toNat → hostAct (.nthByte k i) s = recorded .bitIndex (BitVec.ofNat 8 k) 0 i s)

/-- A readout of a decoder that is not ready returns a value of the readout's own kind, which nothing fixes, and changes nothing
but the reply and the counter of free values (42_bit_accumulator.md R201, 93_implementation_defined.md U20; the counter is the
model's, log 13). The hex string is absent or of the form of R199. -/
def Obligations.ReadoutOfUnreadyFrame : Prop :=
  ∀ (s : State) (k : Nat) (d : Decoder), s.decs[k]? = some d → d.ready = false →
    let digit := fun x : Nat =>
      ['0', '1', '2', '3', '4', '5', '6', '7', '8', '9', 'A', 'B', 'C', 'D', 'E', 'F'].getD x ' '
    let hexForm := fun bs : List Byte => if bs = [] then none else some (String.ofList
      (List.intercalate [' '] (bs.map fun b => [digit (b.toNat / 16), digit (b.toNat % 16)])))
    let answers := fun (op : HostOp) (r : Reply) => hostAct op s = .next ((s.setReply r).bumpFree)
    (∃ n, answers (.bitCount k) (.count n)) ∧
    (∃ n, answers (.byteCount k) (.count n)) ∧
    (∃ bs, answers (.toHexString k) (.hex (hexForm bs))) ∧
    (∀ f, ∃ o, answers (.compareFrame k f) (.ordering o)) ∧
    (∀ i : Entry, i.toNat < d.cnt.toNat → ∃ b, answers (.nthBit k i) (.bit b)) ∧
    (∀ i : Entry, i.toNat < (d.cnt.toNat + 7) / 8 → ∃ b, answers (.nthByte k i) (.byte b))

/-- 42_bit_accumulator.md R199: the hex dump of a ready frame: absent when no bit is recorded, otherwise the recorded bytes, the
most significant first, two upper-case digits each, joined by one space. -/
def Obligations.HexDumpOfReadyFrame : Prop :=
  ∀ (s : State) (k : Nat) (d : Decoder), s.decs[k]? = some d → d.ready = true →
    let n := (d.cnt.toNat + 7) / 8
    let digit := fun x : Nat =>
      ['0', '1', '2', '3', '4', '5', '6', '7', '8', '9', 'A', 'B', 'C', 'D', 'E', 'F'].getD x ' '
    let byte := fun i : Nat => d.v / 256 ^ i % 256
    (d.cnt.toNat = 0 → hostAct (.toHexString k) s = .next (s.setReply (.hex none))) ∧
    (0 < d.cnt.toNat → hostAct (.toHexString k) s = .next (s.setReply (.hex (some (String.ofList
      (List.intercalate [' '] ((List.range n).map fun j =>
        [digit (byte (n - 1 - j) / 16), digit (byte (n - 1 - j) % 16)])))))))

/-- 42_bit_accumulator.md R200: frames are compared by count first and then by their bits from the most significant down. -/
def Obligations.CompareIsLexicographic : Prop :=
  ∀ a b : Frame, a.v < 2 ^ a.cnt.toNat → b.v < 2 ^ b.cnt.toNat →
    (compareFrames a b = .eq ↔ a = b) ∧
    (compareFrames a b = .lt ↔ a.cnt.toNat < b.cnt.toNat ∨ (a.cnt = b.cnt ∧
      ∃ i, i < a.cnt.toNat ∧ (∀ j, i < j → j < a.cnt.toNat → a.v.testBit j = b.v.testBit j) ∧
        a.v.testBit i = false ∧ b.v.testBit i = true)) ∧
    (compareFrames a b = .gt ↔ compareFrames b a = .lt)

/-! ## The compressor -/

/-- 40_compressor.md R141 to R144 and R148: the three bands, the saturation, and the identity when compression is disabled. -/
def Obligations.CompressBands : Prop :=
  ∀ u : Entry,
    (u.toNat < 2048 → (compress8 u).toNat = u.toNat / 16) ∧
    (2048 ≤ u.toNat → u.toNat < 17408 → (compress8 u).toNat = 128 + (u.toNat - 2048) / 128) ∧
    (17408 ≤ u.toNat → u.toNat < 46080 → (compress8 u).toNat = 248 + (u.toNat - 17408) / 4096) ∧
    (46080 ≤ u.toNat → (compress8 u).toNat = 255) ∧
    (compress true u).toNat = (compress8 u).toNat ∧ compress false u = u ∧ uncompact false u = u

/-- 40_compressor.md R145: `compress` is monotonic and onto the codes. -/
def Obligations.CompressMonotoneOnto : Prop :=
  (∀ a b : Entry, a ≤ b → compress8 a ≤ compress8 b) ∧ (∀ c : Byte, ∃ u : Entry, compress8 u = c)

/-- 40_compressor.md R146 and R147: `uncompact` is the lowest duration of its code's band step; the round-trip law on durations and
on codes, and that it does not hold on raw durations. -/
def Obligations.CompressRoundTrip : Prop :=
  (∀ c : Byte,
    (c.toNat < 128 → (uncompact8 c).toNat = 16 * c.toNat) ∧
    (128 ≤ c.toNat → c.toNat < 248 → (uncompact8 c).toNat = 2048 + 128 * (c.toNat - 128)) ∧
    (248 ≤ c.toNat → c.toNat < 255 → (uncompact8 c).toNat = 17408 + 4096 * (c.toNat - 248)) ∧
    (c.toNat = 255 → (uncompact8 c).toNat = 46080) ∧
    uncompact true (c.setWidth 16) = uncompact8 c) ∧
  (∀ u : Entry, compress8 (uncompact8 (compress8 u)) = compress8 u) ∧
  (∀ c : Byte, compress8 (uncompact8 c) = c) ∧ (uncompact8 (compress8 500)).toNat = 496

/-! ## The table builder -/

/-- 41_table_builder.md R162 to R166: the nominal widths of both levels (mirrored, or 1x and 2x the base width for Manchester), the
four codes of a level, the degenerate level, and the order of the codes when the short width is below the long one. -/
def Obligations.WindowsOrdered : Prop :=
  (∀ (enabled : Bool) (s l : Nat),
    let code := fun x : Nat => (compress enabled (BitVec.ofNat 16 (min x 65535))).toNat
    (s ≠ l → windows enabled s l =
      { shortInf := code (s / 4), shortSup := code ((s + l) / 2),
        longInf := code ((s + l) / 2) + 1, longSup := code (l + l / 2) }) ∧
    (s = l → windows enabled s l =
      { shortInf := code (s / 4), shortSup := code (s + s / 2),
        longInf := code (s / 4), longSup := code (s + s / 2) }) ∧
    (s < l → (windows enabled s l).shortInf ≤ (windows enabled s l).shortSup ∧
      (windows enabled s l).shortSup < (windows enabled s l).longInf ∧
      (windows enabled s l).shortSup ≤ (windows enabled s l).longSup)) ∧
  (∀ (enabled : Bool) (t : TimingParams),
    let twice := min (2 * t.lowShort.toNat) 65535
    (t.family = .manchester → levelWidths t =
      { lowShort := t.lowShort.toNat, lowLong := twice, highShort := t.lowShort.toNat, highLong := twice }) ∧
    (t.family ≠ .manchester → t.highShort = 0 → t.highLong = 0 → levelWidths t =
      { lowShort := t.lowShort.toNat, lowLong := t.lowLong.toNat,
        highShort := t.lowShort.toNat, highLong := t.lowLong.toNat }) ∧
    (t.family ≠ .manchester → (t.highShort ≠ 0 ∨ t.highLong ≠ 0) → levelWidths t =
      { lowShort := t.lowShort.toNat, lowLong := t.lowLong.toNat,
        highShort := t.highShort.toNat, highLong := t.highLong.toNat }) ∧
    lowWindows enabled t = windows enabled (levelWidths t).lowShort (levelWidths t).lowLong ∧
    highWindows enabled t = windows enabled (levelWidths t).highShort (levelWidths t).highLong)

/-- 41_table_builder.md R167: the separator slot of a built vector exceeds both long bands, is not below the requested separator,
and is no larger than either of the two allows. -/
def Obligations.SeparatorExceedsLongBands : Prop :=
  ∀ (enabled : Bool) (p : Template) (t : TimingParams) (table : List Row) (params : List Entry) (nbits : Index8),
    build enabled p t = .ok (table, params, nbits) →
    ∃ x, params[9]? = some x ∧ (lowWindows enabled t).longSup < x.toNat ∧ (highWindows enabled t).longSup < x.toNat ∧
      x.toNat = max (compress enabled t.separatorMin).toNat
        (max (lowWindows enabled t).longSup (highWindows enabled t).longSup + 1) ∧ x.toNat ≤ dmax enabled

/-- 41_table_builder.md R168 to R173 and R177: the table and the layout of a built vector, no entry cut by its 16 bits, both dispatch
slots inside the table; and, for a template that meets the premise of R177, every successor field of the table resolves to a row of
it. (The cut of a template at 256 rows is the model's, log 8; slots 15 and 16 as the only indirect ones log 34.) -/
def Obligations.BuilderVector : Prop :=
  ∀ (enabled : Bool) (p : Template) (t : TimingParams) (table : List Row) (params : List Entry) (nbits : Index8),
    build enabled p t = .ok (table, params, nbits) →
    table = p.firstRow :: p.moreRows.take 255 ∧ 1 ≤ table.length ∧ table.length ≤ 256 ∧
    params.length = 19 ∧ nbits.toNat = t.bitCount ∧
    (params.map BitVec.toNat).take 9 = [(compress enabled t.initialSequenceMin).toNat,
      (lowWindows enabled t).shortInf, (lowWindows enabled t).shortSup,
      (lowWindows enabled t).longInf, (lowWindows enabled t).longSup,
      (highWindows enabled t).shortInf, (highWindows enabled t).shortSup,
      (highWindows enabled t).longInf, (highWindows enabled t).longSup] ∧
    params[10]? = some (if t.prefixLow = 0 then 0 else (Config.prefixWindow enabled t.prefixLow).1) ∧
    params[11]? = some (if t.prefixLow = 0 then 0 else (Config.prefixWindow enabled t.prefixLow).2) ∧
    params[12]? = some (if t.prefixHigh = 0 then 0 else (Config.prefixWindow enabled t.prefixHigh).1) ∧
    params[13]? = some (if t.prefixHigh = 0 then 0 else (Config.prefixWindow enabled t.prefixHigh).2) ∧
    (∃ x, params[14]? = some x ∧ x.toNat = t.bitCount) ∧
    (∃ x, params[15]? = some x ∧ x.toNat < table.length ∧
      x = if t.prefixLow ≠ 0 ∨ t.prefixHigh ≠ 0 then p.prefixRow else p.payloadRow) ∧
    (∃ x, params[16]? = some x ∧ x.toNat < table.length ∧ (t.family ≠ .tribitInv → x = 0) ∧
      (t.family = .tribitInv → x =
        if t.highShort = t.highLong ∧ (t.highShort ≠ 0 ∨ t.lowShort = t.lowLong) then p.specialRow else p.normalRow)) ∧
    params[17]? = some (if t.firstLowIgnore = 0 then 0 else Config.fliCode enabled t.firstLowIgnore) ∧
    params[18]? = some (if t.lastLowOverride = 0 then 0 else Config.lloCode enabled t.lastLowOverride) ∧
    (TemplateBounded p → ∀ d : Decoder, d.table = table → d.params = params →
      ∀ w ∈ table, ∀ i, decode w = .ok i → ∀ f ∈ succsOf i, ∃ n, SuccIs d f n)

/-- 41_table_builder.md R175 and 60_exceptions.md R349: a build answers the first item of R175 that holds, and succeeds when none
does. The items are those of `ConfigItem` (item 2 on Manchester widths: the model's reading, log 10; item 7: log 11). -/
def Obligations.BuilderRejectsDefects : Prop :=
  ∀ (enabled : Bool) (p : Template) (t : TimingParams),
    (∀ n, build enabled p t = .error n ↔ ConfigItem enabled p t n ∧ ∀ m, m < n → ¬ ConfigItem enabled p t m) ∧
    ((∃ out, build enabled p t = .ok out) ↔ ∀ n, ¬ ConfigItem enabled p t n)

/-! ## Registration -/

/-- 45_host_interface.md R313: a registration that faults records `CONFIG` with the index the decoder would get and registers
nothing: the builder's item number, or 8 for a range defect of a table. -/
def Obligations.ConfigDefectRegistersNothing : Prop :=
  ∀ s : State, s.aux.started = false →
    (∀ t cb n, build s.cfg.compress (Config.template t.family) t = .error n →
      hostAct (.registerDecoder t cb) s =
        recorded .config (BitVec.ofNat 8 s.decs.length) 0 (BitVec.ofNat 16 n) s) ∧
    (∀ table params nbits cbs,
      (table.length = 0 ∨ 256 < table.length ∨ params.length = 0 ∨ 256 < params.length ∨ nbits = 0 ∨ 255 < nbits ∨
        255 ≤ s.decs.length) →
      hostAct (.registerTable table params nbits cbs) s =
        recorded .config (BitVec.ofNat 8 s.decs.length) 0 8 s)

/-- 45_host_interface.md R311: a registration in range appends one decoder in the reset state with its configuration and its
callback records, and returns its index; nothing else of the block changes. `register_decoder` builds from the template of its
family, a constant of Config without a value (log 8), so what it registers is said for every template. After the first edge both
registrations are refused (R312, 93_implementation_defined.md U43; the refusal's form is the model's, log 14). -/
def Obligations.RegistrationAppends : Prop :=
  (∀ s : State, s.aux.started = true →
    (∀ t cb, hostAct (.registerDecoder t cb) s = .refused .registrationAfterFirstEdge) ∧
    (∀ table params nbits cbs,
      hostAct (.registerTable table params nbits cbs) s = .refused .registrationAfterFirstEdge)) ∧
  (∀ s : State, s.aux.started = false → s.decs.length < 255 →
    (∀ (table : List Row) (params : List Entry) (nbits : Nat) (cbs : List CallbackSpec),
      1 ≤ table.length → table.length ≤ 256 → 1 ≤ params.length → params.length ≤ 256 → 1 ≤ nbits → nbits ≤ 255 →
      hostAct (.registerTable table params nbits cbs) s = .next ((s.setDecs (s.decs ++
        [{ table := table, params := params, nbits := BitVec.ofNat 8 nbits, status := 0, v := 0, cnt := 0, ready := false,
           callbacks := cbs.map fun c =>
             { fn := c.fn, filter := c.filter, interval := c.interval, last := 0, fired := false } }])).setReply
        (.handle s.decs.length))) ∧
    (∀ (p : Template) (t : TimingParams) (cb : Option CallbackSpec) (table : List Row) (params : List Entry) (nbits : Index8),
      build s.cfg.compress p t = .ok (table, params, nbits) →
      registerBuilt p t cb s = (s.setDecs (s.decs ++
        [{ table := table, params := params, nbits := nbits, status := 0, v := 0, cnt := 0, ready := false,
           callbacks := cb.toList.map fun c =>
             { fn := c.fn, filter := c.filter, interval := c.interval, last := 0, fired := false } }])).setReply
        (.handle s.decs.length)) ∧
    (∀ (t : TimingParams) (cb : Option CallbackSpec),
      hostAct (.registerDecoder t cb) s = .next (registerBuilt (Config.template t.family) t cb s)))

/-! ## The queue -/

/-- 44_signal_queue.md R271 and R272: what an edge writes: the duration modulo 2^32, saturated and compressed, in the slot at `w`;
`w` advances; on overrun `r` advances too and `hold_valid` is cleared; the decoders and the rest of the consumer stay. Outside the
block the edge enters the channel-clear window with its raw duration (R326; the window's form is the model's, log 19) and ends the
time of registration (R312; the flag is the model's, log 14). -/
def Obligations.PushWritesEvent : Prop :=
  ∀ (s t : State) (ts : Stamp) (lvl : Bool), nextTurn s = .edge ts lvl → s.fault.fatal = false → s.Inv →
    step s = .next t →
    let raw := (ts.toNat + 2 ^ 32 - s.prod.prevTs.toNat) % 2 ^ 32
    t.prod.prevTs = ts ∧
    t.q.slots[s.q.w]? = some { d := compress s.cfg.compress (BitVec.ofNat 16 (min raw 65535)), lvl := lvl } ∧
    (∀ i, i ≠ s.q.w → t.q.slots[i]? = s.q.slots[i]?) ∧ t.q.w = (s.q.w + 1) % s.cfg.qcap ∧
    ((s.q.w + 1) % s.cfg.qcap = s.q.r → t.q.r = (s.q.r + 1) % s.cfg.qcap ∧
      t.cons = { s.cons with holdValid := false }) ∧
    ((s.q.w + 1) % s.cfg.qcap ≠ s.q.r → t.q.r = s.q.r ∧ t.cons = s.cons) ∧
    t.decs = s.decs ∧ t.fault = s.fault ∧ t.cfg = s.cfg ∧
    t.host.ccTimes = (BitVec.ofNat 32 raw :: s.host.ccTimes).take s.cfg.ccWindow ∧ t.host.reply = s.host.reply ∧
    t.aux = { s.aux with started := true }

/-- The ring buffer refines a bounded list: a push appends, dropping the oldest entry exactly when `N - 1` are held
(10_state.md R31, 44_signal_queue.md R270, R273). -/
def Obligations.PushRefinesBoundedList : Prop :=
  ∀ (n : Nat) (q : Queue) (e : Event), 2 ≤ n → q.wf n →
    (queuePush n e q).wf n ∧ (queueList n q).length ≤ n - 1 ∧
    (queueFull n q = true ↔ (queueList n q).length = n - 1) ∧ (queueEmpty q = true ↔ queueList n q = []) ∧
    queueList n (queuePush n e q) =
      (if (queueList n q).length = n - 1 then (queueList n q).tail else queueList n q) ++ [e]

/-- 44_signal_queue.md R281, the overrun law for every length: pushing events into an empty queue with no consumer action leaves
the newest `N - 1` of them in order; in particular `N` pushes leave `e_2 .. e_N`. -/
def Obligations.OverrunLaw : Prop :=
  ∀ (n : Nat) (q : Queue) (es : List Event), 2 ≤ n → q.wf n → q.r = q.w →
    queueList n (es.foldl (fun q e => queuePush n e q) q) = es.drop (es.length - (n - 1)) ∧
    (es.length = n → queueList n (es.foldl (fun q e => queuePush n e q) q) = es.tail)

/-- 44_signal_queue.md R283: of the events not fetched yet, an edge appends one and drops the oldest only on an overrun that does
not hit the held entry; a fetch takes the oldest; no other consumer action and no turn of another agent but block reset changes them. -/
def Obligations.NoLossNoDuplication : Prop :=
  ∀ s t : State, s.Inv → s.fault.fatal = false → step s = .next t →
    (∀ ts lvl, nextTurn s = .edge ts lvl →
      unfetched t = (if queueFull s.cfg.qcap s.q = true ∧ s.cons.holdValid = false then (unfetched s).tail
        else unfetched s) ++ [edgeEvent ts lvl s]) ∧
    (nextTurn s = .consumer → s.cons.phase ≠ .fetch → unfetched t = unfetched s) ∧
    (nextTurn s = .host ∨ nextTurn s = .readFault ∨ nextTurn s = .timeout → unfetched t = unfetched s) ∧
    (nextTurn s = .consumer → s.cons.phase = .fetch →
      (unfetched s = [] ∧ unfetched t = [] ∧ t.cons.phase = .idle) ∨
      (∃ e rest, unfetched s = e :: rest ∧ unfetched t = rest ∧ t.cons.hold = e ∧ t.cons.phase = .feed))

/-! ## The host -/

/-- 45_host_interface.md R320 and R321: a dispatch resets every ready decoder and touches no other; afterwards no decoder is ready. -/
def Obligations.DispatchResetsReady : Prop :=
  ∀ (s t : State) (now : Stamp), hostAct (.dispatchReadyFrames now) s = .next t →
    t.decs.length = s.decs.length ∧ anyReady t = false ∧
    (∀ (k : Nat) (d : Decoder), s.decs[k]? = some d → d.ready = false → t.decs[k]? = some d) ∧
    (∀ (k : Nat) (d : Decoder), s.decs[k]? = some d → d.ready = true → ∃ cbs, t.decs[k]? = some
      { d with status := 0, v := 0, cnt := 0, ready := false, callbacks := cbs }) ∧
    t.cfg = s.cfg ∧ t.q = s.q ∧ t.prod = s.prod ∧ t.cons = s.cons ∧ t.fault = s.fault

/-- 45_host_interface.md R317 to R319: a dispatch invokes, in the decoders' list order and in registration order within each, once
each, exactly the callbacks of ready decoders whose filter is absent or equal to the frame and which never fired or last fired at
least `T` before, with the frame as a value; exactly those records get `last = now` and `fired = 1`. -/
def Obligations.DispatchFiresCallbacks : Prop :=
  ∀ (s : State) (now : Stamp),
    let due := fun (d : Decoder) (cb : Callback) =>
      (decide (cb.filter = none) || decide (cb.filter = some { cnt := d.cnt, v := d.v })) &&
      (!cb.fired || decide (cb.interval.toNat ≤ (now.toNat + 2 ^ 32 - cb.last.toNat) % 2 ^ 32))
    ∃ t, hostAct (.dispatchReadyFrames now) s = .next t ∧
      t.host.reply = .dispatched (s.decs.zipIdx.flatMap fun (d, k) =>
        if d.ready = true then (d.callbacks.filter (due d)).map fun cb =>
          { dec := k, fn := cb.fn, frame := { cnt := d.cnt, v := d.v } }
        else []) ∧
      (∀ (k : Nat) (d : Decoder) (j : Nat) (cb : Callback), s.decs[k]? = some d → d.ready = true →
        d.callbacks[j]? = some cb → ∃ d' cb', t.decs[k]? = some d' ∧ d'.callbacks[j]? = some cb' ∧
          cb' = if due d cb = true then { cb with last := now, fired := true } else cb)

/-- 45_host_interface.md R321 and 70_reset_and_hazards.md R382: a decoder reset clears one decoder's status, ready flag and
accumulator and nothing else but the reply. -/
def Obligations.ResetDecoderClears : Prop :=
  ∀ (s : State) (k : Nat) (d : Decoder), s.decs[k]? = some d →
    hostAct (.resetDecoder k) s = .next
      ((s.setDec k { d with status := 0, ready := false, v := 0, cnt := 0 }).setReply .done)

/-- 45_host_interface.md R325: a host operation runs in one action, only while `busy = 0` and `FATAL = 0`, except `read_fault`, which
runs always (60_exceptions.md R353, log 32); an operation that waits (R315, R326) runs only when its condition holds. What polling
and a wait for a frame return: R314, R315. -/
def Obligations.HostRunsOnlyIdle : Prop :=
  (∀ (s : State) (op : HostOp) (rest : List HostOp), nextTurn s = .host → s.env.hostOps = op :: rest →
    let popped := (popTurn s).setEnv { turns := s.env.turns.tail, hostOps := rest }
    (op = .readFault → step s = hostAct .readFault popped) ∧
    (op ≠ .readFault → (s.cons.busy = true ∨ s.fault.fatal = true) → step s = .next (popTurn s)) ∧
    (s.cons.busy = false → s.fault.fatal = false → (op = .blockUntilFrameReady → anyReady s = true) →
      (∀ x, op = .waitChannelClear x → channelClear s = true) → step s = hostAct op popped) ∧
    (op = .blockUntilFrameReady → anyReady s = false → step s = .next (popTurn s))) ∧
  (∀ s : State, (anyReady s = true ↔ ∃ d ∈ s.decs, d.ready = true) ∧
    hostAct .hasAnyFrameReady s = .next (s.setReply (.flag (anyReady s))) ∧
    hostAct .blockUntilFrameReady s = .next (s.setReply .done))

/-- 45_host_interface.md R326: the channel-clear wait returns `clear` as soon as at least `CC_VOTES` of the last `CC_WINDOW` edges lie in
the range, waits while they do not, and returns `timed_out` when its timeout expires first; it changes no block state. -/
def Obligations.ChannelClearWait : Prop :=
  ∀ (s : State) (x : Option Stamp) (rest : List HostOp), s.env.hostOps = .waitChannelClear x :: rest →
    s.cons.busy = false → s.fault.fatal = false →
    let votes := ((s.host.ccTimes.take s.cfg.ccWindow).filter Config.ccInRange).length
    let popped := s.setEnv { turns := s.env.turns.tail, hostOps := rest }
    (nextTurn s = .host → s.cfg.ccVotes ≤ votes → step s = .next (popped.setReply (.channel true))) ∧
    (nextTurn s = .host → votes < s.cfg.ccVotes → step s = .next (popTurn s)) ∧
    (nextTurn s = .timeout → x ≠ none → votes < s.cfg.ccVotes → step s = .next (popped.setReply (.channel false))) ∧
    (nextTurn s = .timeout → x = none → step s = .next (popTurn s))

/-- 60_exceptions.md R353: `read_fault` is always enabled, returns the fault registers, the code by its number of R341, and changes
nothing else. The rest of the register view of 10_state.md R40 (CFG, DCFG, DSTAT) is read as it stands (the operations that read it
are the model's, log 23). -/
def Obligations.ReadFaultAlwaysEnabled : Prop :=
  ∀ s : State,
    let fstat : Reply := .faultRecord s.fault.fatal
      (match s.fault.code with
        | .none => 0 | .badOpcode => 1 | .badOperand => 2 | .badSuccessor => 3 | .bitOverflow => 4 | .bitIndex => 5
        | .config => 6)
      s.fault.dec s.fault.row s.fault.val
    (nextTurn s = .readFault → step s = .next ((popTurn s).setReply fstat)) ∧
    hostAct .readFault s = .next (s.setReply fstat) ∧
    hostAct .readCfg s = .next (s.setReply (.cfgReg s.cfg.compress s.cfg.qcapLog2 (BitVec.ofNat 8 s.decs.length))) ∧
    (∀ (k : Nat) (d : Decoder), s.decs[k]? = some d →
      hostAct (.readDcfg k) s = .next (s.setReply
        (.dcfgReg (BitVec.ofNat 9 d.table.length) (BitVec.ofNat 9 d.params.length) d.nbits)) ∧
      hostAct (.readDstat k) s = .next (s.setReply (.dstatReg d.status d.cnt d.ready)))

/-! ## Faults and reset -/

/-- 60_exceptions.md R352: while `FATAL = 1` every step goes on without changing the block, whoever's turn it is; only block reset
clears the fault. The reply may change, by `read_fault` only. -/
def Obligations.HaltStopsAll : Prop :=
  ∀ s : State, s.fault.fatal = true → nextTurn s ≠ .blockReset →
    ∃ t, step s = .next t ∧ t.cfg = s.cfg ∧ t.decs = s.decs ∧ t.q = s.q ∧ t.prod = s.prod ∧ t.cons = s.cons ∧
      t.fault = s.fault ∧ t.aux = s.aux ∧ t.host.ccTimes = s.host.ccTimes ∧
      (t.host.reply = s.host.reply ∨ t.host.reply = fstatReply s.fault)

/-- 60_exceptions.md R351: the action that raises a fault commits no other write. -/
def Obligations.FaultCommitsNothingElse : Prop :=
  ∀ s t : State, s.fault.fatal = false → step s = .next t → t.fault.fatal = true →
    t.cfg = s.cfg ∧ t.decs = s.decs ∧ t.q = s.q ∧ t.prod = s.prod ∧ t.cons = s.cons ∧ t.host = s.host

/-- 70_reset_and_hazards.md R380: the state block reset leaves, from every state, and the model's reset state. (The slots' contents and
`cons.hold`, which the rule leaves unspecified, are not stated.) -/
def Obligations.BlockResetState : Prop :=
  let isReset := fun t : State => t.decs = [] ∧ t.q.r = 0 ∧ t.q.w = 0 ∧ t.q.slots.length = t.cfg.qcap ∧
    t.prod.prevTs = 0 ∧ t.cons.busy = false ∧ t.cons.holdValid = false ∧ t.cons.phase = .idle ∧ t.cons.cur = 0 ∧
    t.cons.first = true ∧ t.fault = { fatal := false, code := .none, dec := 0, row := 0, val := 0 }
  isReset State.reset ∧
  ∀ s : State, nextTurn s = .blockReset → ∃ t, step s = .next t ∧ t.cfg = s.cfg ∧ isReset t

/-- The invariant holds after block reset of every legal build, the model's reset state among them. -/
def Obligations.InvAtReset : Prop :=
  (∀ c : BuildCfg, 1 ≤ c.qcapLog2.toNat → (State.resetOf c).Inv) ∧ State.reset.Inv

/-- Every step keeps the invariant: statuses inside their tables, accumulators inside their bounds, the ring's form, codes of the
active mode, the guard, the held entry, the fault registers. -/
def Obligations.StepKeepsInv : Prop :=
  ∀ s t : State, s.Inv → step s = .next t → t.Inv

/-- From a state with the invariant no step stops with a model fault, and a refusal is one of the two the spec gives no effect
for: a registration after the first edge, or an unknown handle. -/
def Obligations.NoStopFromInv : Prop :=
  ∀ s : State, s.Inv → (∃ t, step s = .next t) ∨
    (nextTurn s = .host ∧ (step s = .refused .registrationAfterFirstEdge ∨ step s = .refused .noSuchHandle))

/-! ## Whole-machine rules -/

/-- 10_state.md R25: `ready` is set only by a TERM row of that decoder and cleared only by the decoder reset, alone or in a
dispatch (block reset removes the decoder). -/
def Obligations.ReadyFlagRule : Prop :=
  ∀ (s t : State) (k : Nat) (d d' : Decoder), s.Inv → step s = .next t → s.decs[k]? = some d → t.decs[k]? = some d' →
    (d.ready = false → d'.ready = true → nextTurn s = .consumer ∧ s.cons.phase = .feed ∧ s.cons.cur = k ∧
      ∃ w nt, d.table[d.status.toNat]? = some w ∧ decode w = .ok (.term nt)) ∧
    (d.ready = true → d'.ready = false → nextTurn s = .host ∧
      (s.env.hostOps.head? = some (.resetDecoder k) ∨ ∃ now, s.env.hostOps.head? = some (.dispatchReadyFrames now)))

/-- 70_reset_and_hazards.md R395: no edge and no consumer action changes a decoder whose frame is ready. -/
def Obligations.ReadyFrameStable : Prop :=
  ∀ (s t : State) (k : Nat) (d : Decoder), s.Inv → step s = .next t → s.decs[k]? = some d → d.ready = true →
    (nextTurn s = .consumer ∨ ∃ ts lvl, nextTurn s = .edge ts lvl) → t.decs[k]? = some d

/-- 43_interpreter.md R220 and R236: a row evaluation reads nothing but its own decoder and the held event, and writes nothing of
another decoder: two states that agree on these give the same decoder and the same fault record. -/
def Obligations.RowTouchesOwnDecoder : Prop :=
  ∀ (i : Instr) (s u t : State), s.cons.cur = u.cons.cur → s.cons.hold = u.cons.hold → s.fault = u.fault →
    s.decs[s.cons.cur]? = u.decs[u.cons.cur]? → exec i s = .next t →
    (∀ k, k ≠ s.cons.cur → t.decs[k]? = s.decs[k]?) ∧
    ∃ t', exec i u = .next t' ∧ t'.decs[u.cons.cur]? = t.decs[s.cons.cur]? ∧ t'.fault = t.fault

/-- 20_memory.md R85: nothing in the block writes a table, a parameter vector or a target after registration; decoders keep their
indices and none disappears but by block reset. -/
def Obligations.ConfigurationImmutable : Prop :=
  ∀ s t : State, step s = .next t → nextTurn s ≠ .blockReset → t.cfg = s.cfg ∧
    ∀ (k : Nat) (d : Decoder), s.decs[k]? = some d → ∃ d', t.decs[k]? = some d' ∧ d'.table = d.table ∧ d'.params = d.params ∧
      d'.nbits = d.nbits
end

