-- ==== Sys2Proof/Laws/Builder.lean ====
section
/-!
SUPPORT. What a build answers, said once: the items of 41_table_builder.md R175 as propositions, and the first item that holds
(60_exceptions.md R349).
-/

namespace Sys2Proof.Machine

open Sys2Proof

/-- A build without a defect meets none of the items (41_table_builder.md R175, 60_exceptions.md R349). -/
theorem firstItem_none {l : List (Nat × Bool)} (h : firstItem l = none) : ∀ p ∈ l, p.2 = false := by
  induction l with
  | nil => intro p hp; cases hp
  | cons a l ih =>
    obtain ⟨n, b⟩ := a
    cases b with
    | true => cases h
    | false =>
      intro p hp
      rcases List.mem_cons.mp hp with rfl | hp
      · rfl
      · exact ih h p hp

/-- The item answered is on the list, and the items before it do not hold. -/
theorem firstItem_some {l : List (Nat × Bool)} {n : Nat} (h : firstItem l = some n) :
    ∃ a b, l = a ++ (n, true) :: b ∧ ∀ p ∈ a, p.2 = false := by
  induction l with
  | nil => cases h
  | cons x l ih =>
    obtain ⟨m, b⟩ := x
    cases b with
    | true => cases h; exact ⟨[], l, rfl, by simp⟩
    | false =>
      obtain ⟨a, b, rfl, ha⟩ := ih h
      exact ⟨(m, false) :: a, b, rfl, by simpa using ha⟩

theorem oneSet_iff (a b : Entry) : oneSet a b = true ↔ OneNonzero a b := by
  simp only [oneSet, OneNonzero, bne_iff_ne, ne_eq, beq_eq_beq]
  tauto

theorem unsetOr_iff (a : Entry) (x : Nat) : unsetOr a x = true ↔ a = 0 ∨ a.toNat = x := by
  simp [unsetOr]

theorem manchesterWidths_iff (t : TimingParams) : manchesterWidths t = true ↔ ManchesterWidthsOk t := by
  simp only [manchesterWidths, ManchesterWidthsOk, Bool.and_eq_true, bne_iff_ne, unsetOr_iff, sat16, and_assoc,
    BitVec.toNat_inj]

theorem shortSaturates_iff (enabled : Bool) (s l : Nat) :
    shortSaturates enabled s l = true ↔ s ≠ l ∧ (windows enabled s l).shortSup = dmax enabled := by
  simp [shortSaturates]

/-- Each entry of the item list decides its item of R175. -/
theorem configItems_iff {enabled : Bool} {p : Template} {t : TimingParams} {x : Nat × Bool}
    (h : x ∈ configItems enabled p t) : x.2 = true ↔ ConfigItem enabled p t x.1 := by
  simp only [configItems, List.mem_cons, List.not_mem_nil, or_false] at h
  rcases h with rfl | rfl | rfl | rfl | rfl | rfl | rfl <;>
    simp only [ConfigItem, Bool.or_eq_true, Bool.and_eq_true, Bool.not_eq_true', beq_iff_eq, bne_iff_ne, decide_eq_true_eq,
      oneSet_iff, shortSaturates_iff, longMax, or_assoc, and_assoc, ← manchesterWidths_iff, ← Bool.not_eq_true,
      Bool.and_eq_true, ne_eq]

/-- The items that can hold are the seven of the list. -/
theorem configItem_mem {enabled : Bool} {p : Template} {t : TimingParams} {n : Nat} (h : ConfigItem enabled p t n) :
    (n, true) ∈ configItems enabled p t := by
  have key : ∀ b, (n, b) ∈ configItems enabled p t → (n, true) ∈ configItems enabled p t := by
    intro b hb
    have hb' : b = true := (configItems_iff hb).mpr h
    exact hb' ▸ hb
  match n, h, key with
  | 1, _, key | 2, _, key | 3, _, key | 4, _, key | 5, _, key | 6, _, key | 7, _, key =>
    exact key _ (by simp [configItems]; rfl)

end Sys2Proof.Machine
end

