-- ==== Sys2Proof/Laws/Encoding.lean ====
section
/-!
SUPPORT. The fields of a packed row, and decoding of one encoded operand or successor (30_encoding.md R100 to R107).
-/

namespace Sys2Proof

/-- Appending fields is a weighted sum. -/
theorem append_toNat_add {m n : Nat} (x : BitVec m) (y : BitVec n) :
    (x ++ y).toNat = x.toNat * 2 ^ n + y.toNat := by
  rw [BitVec.toNat_append, ← Nat.shiftLeft_add_eq_or_of_lt y.isLt, Nat.shiftLeft_eq]

/-- A packed row as a number: its fields at their weights. -/
theorem packRow_toNat (op : BitVec 4) (min max : Operand) (nt nf : Succ) :
    (packRow op min max nt nf).toNat =
      op.toNat * 2 ^ 60 + (operandKind min).toNat * 2 ^ 58 + (operandKind max).toNat * 2 ^ 56 +
      (operandPayload min).toNat * 2 ^ 40 + (operandPayload max).toNat * 2 ^ 24 +
      (succField nt).toNat * 2 ^ 16 + (succField nf).toNat * 2 ^ 8 +
      (succIndirect nt).toNat * 2 ^ 7 + (succIndirect nf).toNat * 2 ^ 6 := by
  simp only [packRow, append_toNat_add, BitVec.toNat_ofNat]
  omega

section Fields

variable (op : BitVec 4) (min max : Operand) (nt nf : Succ)

/-- A field of a packed row is the number's quotient and remainder. -/
theorem packRow_field (at_ n : Nat) (x : BitVec n)
    (h : (packRow op min max nt nf).toNat / 2 ^ at_ % 2 ^ n = x.toNat) :
    (packRow op min max nt nf).extractLsb' at_ n = x := by
  apply BitVec.eq_of_toNat_eq
  rw [BitVec.extractLsb'_toNat, Nat.shiftRight_eq_div_pow, h]

@[simp] theorem rowOp_packRow : rowOp (packRow op min max nt nf) = op :=
  packRow_field _ _ _ _ _ 60 4 _ (by rw [packRow_toNat]; omega)

@[simp] theorem rowKmin_packRow : rowKmin (packRow op min max nt nf) = operandKind min :=
  packRow_field _ _ _ _ _ 58 2 _ (by rw [packRow_toNat]; omega)

@[simp] theorem rowKmax_packRow : rowKmax (packRow op min max nt nf) = operandKind max :=
  packRow_field _ _ _ _ _ 56 2 _ (by rw [packRow_toNat]; omega)

@[simp] theorem rowVmin_packRow : rowVmin (packRow op min max nt nf) = operandPayload min :=
  packRow_field _ _ _ _ _ 40 16 _ (by rw [packRow_toNat]; omega)

@[simp] theorem rowVmax_packRow : rowVmax (packRow op min max nt nf) = operandPayload max :=
  packRow_field _ _ _ _ _ 24 16 _ (by rw [packRow_toNat]; omega)

@[simp] theorem rowNt_packRow : rowNt (packRow op min max nt nf) = succField nt :=
  packRow_field _ _ _ _ _ 16 8 _ (by rw [packRow_toNat]; omega)

@[simp] theorem rowNf_packRow : rowNf (packRow op min max nt nf) = succField nf :=
  packRow_field _ _ _ _ _ 8 8 _ (by rw [packRow_toNat]; omega)

@[simp] theorem rowIt_packRow : rowIt (packRow op min max nt nf) = succIndirect nt :=
  packRow_field _ _ _ _ _ 7 1 _ (by rw [packRow_toNat]; omega)

@[simp] theorem rowIf_packRow : rowIf (packRow op min max nt nf) = succIndirect nf :=
  packRow_field _ _ _ _ _ 6 1 _ (by rw [packRow_toNat]; omega)

@[simp] theorem rowRes_packRow : rowRes (packRow op min max nt nf) = 0#6 :=
  packRow_field _ _ _ _ _ 0 6 0#6 (by rw [packRow_toNat, BitVec.toNat_ofNat]; omega)

end Fields

/-- A sentinel's code names it (30_encoding.md R106). -/
theorem decodeSentinel_encode (s : Sentinel) (h : s.wf = true) : decodeSentinel (encodeSentinel s) = s := by
  cases s with
  | reserved c =>
    have hc : 5 ≤ c.toNat := by simpa [Sentinel.wf] using h
    have ne (n : Nat) (hn : n < 5) : c ≠ BitVec.ofNat 16 n := by
      intro hcn
      rw [hcn, BitVec.toNat_ofNat] at hc
      omega
    change decodeSentinel c = .reserved c
    unfold decodeSentinel
    rw [if_neg (ne 0 (by decide)), if_neg (ne 1 (by decide)), if_neg (ne 2 (by decide)),
      if_neg (ne 3 (by decide)), if_neg (ne 4 (by decide))]
  | _ => decide

/-- An operand's kind and payload name it (30_encoding.md R103). -/
theorem decodeOperand_encode (o : Operand) (h : o.wf = true) :
    decodeOperand (operandKind o) (operandPayload o) = o := by
  cases o with
  | sen s => simpa [operandKind, operandPayload, decodeOperand] using decodeSentinel_encode s h
  | _ => simp [operandKind, operandPayload, decodeOperand]

/-- A successor's indirect bit and field name it (30_encoding.md R107). -/
@[simp] theorem decodeSucc_encode (t : Succ) : decodeSucc (succIndirect t) (succField t) = t := by
  cases t <;> simp [succIndirect, succField, decodeSucc]

/-- Every decoded sentinel is well formed. -/
theorem decodeSentinel_wf (c : Entry) : (decodeSentinel c).wf = true := by
  unfold decodeSentinel
  split_ifs with h0 h1 h2 h3 h4 <;> simp only [Sentinel.wf, decide_eq_true_eq]
  have ne (n : Nat) (hn : c ≠ BitVec.ofNat 16 n) (hlt : n < 65536) : c.toNat ≠ n := by
    intro hc
    apply hn
    apply BitVec.eq_of_toNat_eq
    rw [hc, BitVec.toNat_ofNat, Nat.mod_eq_of_lt hlt]
  have := ne 0 h0 (by decide)
  have := ne 1 h1 (by decide)
  have := ne 2 h2 (by decide)
  have := ne 3 h3 (by decide)
  have := ne 4 h4 (by decide)
  omega

/-- Every decoded operand is well formed. -/
theorem decodeOperand_wf (k : BitVec 2) (v : Entry) : (decodeOperand k v).wf = true := by
  unfold decodeOperand
  split_ifs <;> simp [Operand.wf, decodeSentinel_wf]

/-- A decoded operand is encoded back to its kind and payload (R103, R106). -/
theorem encode_decodeOperand (k : BitVec 2) (v : Entry) : operandKind (decodeOperand k v) = k ∧ operandPayload (decodeOperand k v) = v := by
  unfold decodeOperand
  split_ifs with h0 h1 h2
  · simp [operandKind, operandPayload, h0]
  · simp [operandKind, operandPayload, h1]
  · simp [operandKind, operandPayload, h2]
  · have hk : k = 3#2 := by
      apply BitVec.eq_of_toNat_eq
      have := k.isLt
      have a0 : k.toNat ≠ 0 := fun h => h0 (BitVec.eq_of_toNat_eq h)
      have a1 : k.toNat ≠ 1 := fun h => h1 (BitVec.eq_of_toNat_eq h)
      have a2 : k.toNat ≠ 2 := fun h => h2 (BitVec.eq_of_toNat_eq h)
      simp; omega
    refine ⟨by rw [hk]; rfl, ?_⟩
    simp only [operandPayload]
    unfold decodeSentinel
    split_ifs <;> simp_all [encodeSentinel]

/-- A decoded successor is encoded back to its indirect bit and field (R107). -/
theorem encode_decodeSucc (b : BitVec 1) (f : Index8) : succIndirect (decodeSucc b f) = b ∧ succField (decodeSucc b f) = f := by
  unfold decodeSucc
  split_ifs with h
  · simp [succIndirect, succField, h]
  · have : b = 1#1 := by
      apply BitVec.eq_of_toNat_eq
      have := b.isLt
      have a0 : b.toNat ≠ 0 := fun hh => h (BitVec.eq_of_toNat_eq hh)
      simp; omega
    simp [succIndirect, succField, this]

/-- A row word from its fields (R100). -/
theorem row_toNat (w : Row) : w.toNat = (rowOp w).toNat * 2 ^ 60 + (rowKmin w).toNat * 2 ^ 58 + (rowKmax w).toNat * 2 ^ 56 +
      (rowVmin w).toNat * 2 ^ 40 + (rowVmax w).toNat * 2 ^ 24 +
      (rowNt w).toNat * 2 ^ 16 + (rowNf w).toNat * 2 ^ 8 +
      (rowIt w).toNat * 2 ^ 7 + (rowIf w).toNat * 2 ^ 6 + (rowRes w).toNat := by
  simp only [rowOp, rowKmin, rowKmax, rowVmin, rowVmax, rowNt, rowNf, rowIt, rowIf, rowRes, BitVec.extractLsb'_toNat, Nat.shiftRight_eq_div_pow]
  have hlt := w.isLt
  generalize w.toNat = n at *
  have key : ∀ a b : Nat, n / 2 ^ a = 2 ^ b * (n / 2 ^ (a + b)) + n / 2 ^ a % 2 ^ b := by
    intro a b
    rw [Nat.pow_add, ← Nat.div_div_eq_div_mul, Nat.div_add_mod]
  have e0 := key 0 6
  have e1 := key 6 1
  have e2 := key 7 1
  have e3 := key 8 8
  have e4 := key 16 8
  have e5 := key 24 16
  have e6 := key 40 16
  have e7 := key 56 2
  have e8 := key 58 2
  have e9 : n / 2 ^ 60 % 2 ^ 4 = n / 2 ^ 60 := Nat.mod_eq_of_lt (by omega)
  rw [e9]
  simp only [Nat.reduceAdd, Nat.pow_zero, Nat.div_one] at *
  generalize n / 2 ^ 60 = q60 at *
  generalize n / 2 ^ 58 % 2 ^ 2 = m58 at *
  generalize n / 2 ^ 56 % 2 ^ 2 = m56 at *
  generalize n / 2 ^ 40 % 2 ^ 16 = m40 at *
  generalize n / 2 ^ 24 % 2 ^ 16 = m24 at *
  generalize n / 2 ^ 16 % 2 ^ 8 = m16 at *
  generalize n / 2 ^ 8 % 2 ^ 8 = m8 at *
  generalize n / 2 ^ 7 % 2 ^ 1 = m7 at *
  generalize n / 2 ^ 6 % 2 ^ 1 = m6 at *
  generalize n % 2 ^ 6 = m0 at *
  generalize n / 2 ^ 58 = q58 at *
  generalize n / 2 ^ 56 = q56 at *
  generalize n / 2 ^ 40 = q40 at *
  generalize n / 2 ^ 24 = q24 at *
  generalize n / 2 ^ 16 = q16 at *
  generalize n / 2 ^ 8 = q8 at *
  generalize n / 2 ^ 7 = q7 at *
  generalize n / 2 ^ 6 = q6 at *
  omega

/-- What a row that decodes is: `RES` is 0, `OP` is at most 6, and the fields its operation reads are decoded. -/
theorem decode_ok_fields {w : Row} {i : Instr} (h : decode w = .ok i) :
    rowRes w = 0 ∧ i.opcode = rowOp w ∧
    i = (let min := decodeOperand (rowKmin w) (rowVmin w)
      let max := decodeOperand (rowKmax w) (rowVmax w)
      let nt := decodeSucc (rowIt w) (rowNt w)
      let nf := decodeSucc (rowIf w) (rowNf w)
      match (rowOp w).toNat with
      | 0 => .wait min max nt nf
      | 1 => .term nt
      | 2 => .chkd min max nt nf
      | 3 => .rstb nt
      | 4 => .add0 nt
      | 5 => .add1 nt
      | _ => .chkb min max nt nf) ∧
    (rowOp w).toNat ≤ 6 := by
  unfold decode at h
  split_ifs at h with hr
  · simp only [ne_eq, Decidable.not_not] at hr
    refine ⟨hr, ?_⟩
    split at h <;> (try cases h) <;> rename_i heq <;> (refine ⟨?_, by simp only [heq], by omega⟩; apply BitVec.eq_of_toNat_eq; rw [heq]; rfl)

end Sys2Proof
end

