-- ==== Sys2Proof/Laws/Operands.lean ====
section
/-!
SUPPORT. What operand and successor resolution answer (43_interpreter.md R229 to R233), in the terms of Safety.lean.
-/

namespace Sys2Proof.Machine

open Sys2Proof

/-- Operand resolution answers a value exactly when the operand has that value. -/
theorem resolveOperand_ok_iff (d : Decoder) (o : Operand) (v : Entry) :
    resolveOperand d o = .ok v ↔ OperandIs d o v := by
  cases o with
  | lit x => simp [resolveOperand, OperandIs, eq_comm]
  | par i =>
    simp only [resolveOperand, OperandIs, paramAt]
    cases d.params[i.toNat]? <;> simp
  | pind i =>
    simp only [resolveOperand, OperandIs, paramAt]
    cases d.params[i.toNat]? with
    | none => simp
    | some j => simp only [Option.some.injEq, exists_eq_left']; cases d.params[j.toNat]? <;> simp
  | sen s =>
    cases s <;> simp only [resolveOperand, resolveSentinel, OperandIs, Except.ok.injEq, reduceCtorEq] <;>
      exact eq_comm

/-- Operand resolution raises exactly `BAD_OPERAND` with the offending value. -/
theorem resolveOperand_error_iff (d : Decoder) (o : Operand) (e : Defect) :
    resolveOperand d o = .error e ↔ ∃ x, e = badOperand x ∧ OperandBad d o x := by
  cases o with
  | lit x => simp [resolveOperand, OperandBad]
  | par i =>
    simp only [resolveOperand, OperandBad, paramAt]
    cases h : d.params[i.toNat]? with
    | none => simp [List.getElem?_eq_none_iff.mp h, eq_comm]
    | some v =>
      have := (List.getElem?_eq_some_iff.mp h).1
      simp only [reduceCtorEq, false_iff, not_exists]
      omega
  | pind i =>
    simp only [resolveOperand, OperandBad, paramAt]
    cases h : d.params[i.toNat]? with
    | none => simp [List.getElem?_eq_none_iff.mp h, eq_comm]
    | some j =>
      have := (List.getElem?_eq_some_iff.mp h).1
      have hn : ¬ d.params.length ≤ i.toNat := by omega
      simp only [hn, false_and, false_or, Option.some.injEq, exists_eq_left']
      cases h2 : d.params[j.toNat]? with
      | none => simp [List.getElem?_eq_none_iff.mp h2, eq_comm]
      | some v =>
        have := (List.getElem?_eq_some_iff.mp h2).1
        simp only [reduceCtorEq, false_iff, not_exists]
        omega
  | sen s =>
    cases s <;> simp only [resolveOperand, resolveSentinel, OperandBad, Except.error.injEq, reduceCtorEq,
      and_false, exists_false, exists_eq_right] <;> exact eq_comm

/-- The bounds check answers the low byte of a value inside the table. -/
theorem boundSucc_of_lt {d : Decoder} {n : Entry} (h : n.toNat < d.table.length) :
    boundSucc d n = .ok (n.setWidth 8) := if_pos h

/-- The bounds check raises `BAD_SUCCESSOR` outside the table. -/
theorem boundSucc_of_ge {d : Decoder} {n : Entry} (h : d.table.length ≤ n.toNat) :
    boundSucc d n = .error (badSuccessor n) := if_neg (by omega)

/-- Widening a row index keeps its number. -/
theorem index8_widen_toNat (n : Index8) : (n.setWidth 16).toNat = n.toNat := by
  rw [BitVec.toNat_setWidth]
  omega

/-- Widening a row index and cutting it back is the index. -/
theorem index8_widen_cut (n : Index8) : (n.setWidth 16).setWidth 8 = n := by
  apply BitVec.eq_of_toNat_eq
  rw [BitVec.toNat_setWidth, index8_widen_toNat]
  omega

/-- Successor resolution answers a row index exactly when the field names it inside the table. -/
theorem resolveSucc_ok_iff (d : Decoder) (t : Succ) (n : Index8) :
    resolveSucc d t = .ok n ↔ SuccIs d t n := by
  cases t with
  | direct m =>
    simp only [resolveSucc, SuccIs, boundSucc, index8_widen_toNat, index8_widen_cut]
    split_ifs with h <;> simp [h, eq_comm]
  | indirect i =>
    simp only [resolveSucc, SuccIs, paramAt]
    cases d.params[i.toNat]? with
    | none => simp
    | some p =>
      simp only [Option.some.injEq, exists_eq_left', boundSucc]
      split_ifs with h <;> simp [h, eq_comm]

/-- Successor resolution raises exactly the defects of `SuccBad`. -/
theorem resolveSucc_error_iff (d : Decoder) (t : Succ) (e : Defect) :
    resolveSucc d t = .error e ↔ SuccBad d t e.code e.val := by
  obtain ⟨c, x⟩ := e
  cases t with
  | direct m =>
    simp only [resolveSucc, SuccBad, boundSucc, index8_widen_toNat]
    split_ifs with h
    · simp only [false_iff]; omega
    · simp only [badSuccessor, Except.error.injEq, Defect.mk.injEq]
      constructor
      · rintro ⟨rfl, rfl⟩; exact ⟨by omega, rfl, rfl⟩
      · rintro ⟨_, rfl, rfl⟩; exact ⟨rfl, rfl⟩
  | indirect i =>
    simp only [resolveSucc, SuccBad, paramAt]
    cases h : d.params[i.toNat]? with
    | none =>
      have hle := List.getElem?_eq_none_iff.mp h
      simp only [badOperand, Except.error.injEq, Defect.mk.injEq, hle, true_and, reduceCtorEq, false_and,
        exists_false, or_false]
      constructor <;> (rintro ⟨rfl, rfl⟩; exact ⟨rfl, rfl⟩)
    | some p =>
      have hlt := (List.getElem?_eq_some_iff.mp h).1
      have hn : ¬ d.params.length ≤ i.toNat := by omega
      simp only [hn, false_and, false_or, Option.some.injEq, exists_eq_left', boundSucc]
      split_ifs with hb
      · simp only [false_iff]; omega
      · simp only [badSuccessor, Except.error.injEq, Defect.mk.injEq]
        constructor
        · rintro ⟨rfl, rfl⟩; exact ⟨by omega, rfl, rfl⟩
        · rintro ⟨_, rfl, rfl⟩; exact ⟨rfl, rfl⟩

/-- A successor inside the table keeps the row index below `LEN` (43_interpreter.md R233). -/
theorem SuccIs.lt {d : Decoder} {t : Succ} {n : Index8} (h : SuccIs d t n) : n.toNat < d.table.length := by
  cases t with
  | direct m => obtain ⟨rfl, h⟩ := h; exact h
  | indirect i =>
    obtain ⟨p, _, hp, rfl⟩ := h
    rw [BitVec.toNat_setWidth]
    omega

/-- Committing a legal successor writes `status` only. -/
theorem commitSucc_of_is {d : Decoder} {t : Succ} {n : Index8} (h : SuccIs d t n) :
    commitSucc t d = .ok { d with status := n } := by
  simp only [commitSucc, (resolveSucc_ok_iff d t n).mpr h]

/-- Committing a successor either writes a `status` inside the table or raises the successor's defect. -/
theorem commitSucc_cases (t : Succ) (d : Decoder) :
    (∃ n, SuccIs d t n ∧ commitSucc t d = .ok { d with status := n }) ∨
    (∃ e, SuccBad d t e.code e.val ∧ commitSucc t d = .error e) := by
  cases h : resolveSucc d t with
  | ok n => exact .inl ⟨n, (resolveSucc_ok_iff d t n).mp h, by simp only [commitSucc, h]⟩
  | error e => exact .inr ⟨e, (resolveSucc_error_iff d t e).mp h, by simp only [commitSucc, h]⟩

/-- A check row with legal bounds commits the successor of the branch the range test takes. -/
theorem checkRow_of_is {d : Decoder} {min max : Operand} {nt nf : Succ} {lo hi x : Entry}
    (hlo : OperandIs d min lo) (hhi : OperandIs d max hi) :
    checkRow min max nt nf x d = commitSucc (if inRange lo hi x then nt else nf) d := by
  simp only [checkRow, (resolveOperand_ok_iff d min lo).mpr hlo, (resolveOperand_ok_iff d max hi).mpr hhi]

end Sys2Proof.Machine
end

