-- ==== Sys2Proof/Laws/PerInstr.lean ====
section
/-!
SUPPORT. Facts about every instruction as syntax, one lemma per constructor. The family OpcodeField: the encoded row carries
the instruction's `OP` and zero reserved bits, and is one row of spec/opcode_table.json (30_encoding.md R101, R108, R112).
-/

namespace Sys2Proof.Laws.OpcodeField

open Sys2Proof

/-- The encoded row has the instruction's `OP` and `RES = 0`. -/
def Statement (i : Instr) : Prop := rowOp (encode i) = i.opcode ∧ rowRes (encode i) = 0

theorem wait (min max : Operand) (nt nf : Succ) : Statement (.wait min max nt nf) := by
  simp [Statement, encode, Instr.opcode]

theorem term (nt : Succ) : Statement (.term nt) := by
  simp [Statement, encode, packShort, Instr.opcode]

theorem chkd (min max : Operand) (nt nf : Succ) : Statement (.chkd min max nt nf) := by
  simp [Statement, encode, Instr.opcode]

theorem rstb (nt : Succ) : Statement (.rstb nt) := by
  simp [Statement, encode, packShort, Instr.opcode]

theorem add0 (nt : Succ) : Statement (.add0 nt) := by
  simp [Statement, encode, packShort, Instr.opcode]

theorem add1 (nt : Succ) : Statement (.add1 nt) := by
  simp [Statement, encode, packShort, Instr.opcode]

theorem chkb (min max : Operand) (nt nf : Succ) : Statement (.chkb min max nt nf) := by
  simp [Statement, encode, Instr.opcode]

end Sys2Proof.Laws.OpcodeField
end

