-- ==== Sys2Proof/Laws/State.lean ====
section
/-!
SUPPORT. One lemma per field per update of the state, each true by rfl.
-/

namespace Sys2Proof.Machine

open Sys2Proof

variable (s : State)

/-! ### setDecs -/

@[simp] theorem setDecs_cfg (x : List Decoder) : (s.setDecs x).cfg = s.cfg := rfl
@[simp] theorem setDecs_decs (x : List Decoder) : (s.setDecs x).decs = x := rfl
@[simp] theorem setDecs_q (x : List Decoder) : (s.setDecs x).q = s.q := rfl
@[simp] theorem setDecs_prod (x : List Decoder) : (s.setDecs x).prod = s.prod := rfl
@[simp] theorem setDecs_cons (x : List Decoder) : (s.setDecs x).cons = s.cons := rfl
@[simp] theorem setDecs_fault (x : List Decoder) : (s.setDecs x).fault = s.fault := rfl
@[simp] theorem setDecs_host (x : List Decoder) : (s.setDecs x).host = s.host := rfl
@[simp] theorem setDecs_env (x : List Decoder) : (s.setDecs x).env = s.env := rfl
@[simp] theorem setDecs_aux (x : List Decoder) : (s.setDecs x).aux = s.aux := rfl

/-! ### setQ -/

@[simp] theorem setQ_cfg (x : Queue) : (s.setQ x).cfg = s.cfg := rfl
@[simp] theorem setQ_decs (x : Queue) : (s.setQ x).decs = s.decs := rfl
@[simp] theorem setQ_q (x : Queue) : (s.setQ x).q = x := rfl
@[simp] theorem setQ_prod (x : Queue) : (s.setQ x).prod = s.prod := rfl
@[simp] theorem setQ_cons (x : Queue) : (s.setQ x).cons = s.cons := rfl
@[simp] theorem setQ_fault (x : Queue) : (s.setQ x).fault = s.fault := rfl
@[simp] theorem setQ_host (x : Queue) : (s.setQ x).host = s.host := rfl
@[simp] theorem setQ_env (x : Queue) : (s.setQ x).env = s.env := rfl
@[simp] theorem setQ_aux (x : Queue) : (s.setQ x).aux = s.aux := rfl

/-! ### setProd -/

@[simp] theorem setProd_cfg (x : Producer) : (s.setProd x).cfg = s.cfg := rfl
@[simp] theorem setProd_decs (x : Producer) : (s.setProd x).decs = s.decs := rfl
@[simp] theorem setProd_q (x : Producer) : (s.setProd x).q = s.q := rfl
@[simp] theorem setProd_prod (x : Producer) : (s.setProd x).prod = x := rfl
@[simp] theorem setProd_cons (x : Producer) : (s.setProd x).cons = s.cons := rfl
@[simp] theorem setProd_fault (x : Producer) : (s.setProd x).fault = s.fault := rfl
@[simp] theorem setProd_host (x : Producer) : (s.setProd x).host = s.host := rfl
@[simp] theorem setProd_env (x : Producer) : (s.setProd x).env = s.env := rfl
@[simp] theorem setProd_aux (x : Producer) : (s.setProd x).aux = s.aux := rfl

/-! ### setCons -/

@[simp] theorem setCons_cfg (x : Consumer) : (s.setCons x).cfg = s.cfg := rfl
@[simp] theorem setCons_decs (x : Consumer) : (s.setCons x).decs = s.decs := rfl
@[simp] theorem setCons_q (x : Consumer) : (s.setCons x).q = s.q := rfl
@[simp] theorem setCons_prod (x : Consumer) : (s.setCons x).prod = s.prod := rfl
@[simp] theorem setCons_cons (x : Consumer) : (s.setCons x).cons = x := rfl
@[simp] theorem setCons_fault (x : Consumer) : (s.setCons x).fault = s.fault := rfl
@[simp] theorem setCons_host (x : Consumer) : (s.setCons x).host = s.host := rfl
@[simp] theorem setCons_env (x : Consumer) : (s.setCons x).env = s.env := rfl
@[simp] theorem setCons_aux (x : Consumer) : (s.setCons x).aux = s.aux := rfl

/-! ### setFault -/

@[simp] theorem setFault_cfg (x : FaultRegs) : (s.setFault x).cfg = s.cfg := rfl
@[simp] theorem setFault_decs (x : FaultRegs) : (s.setFault x).decs = s.decs := rfl
@[simp] theorem setFault_q (x : FaultRegs) : (s.setFault x).q = s.q := rfl
@[simp] theorem setFault_prod (x : FaultRegs) : (s.setFault x).prod = s.prod := rfl
@[simp] theorem setFault_cons (x : FaultRegs) : (s.setFault x).cons = s.cons := rfl
@[simp] theorem setFault_fault (x : FaultRegs) : (s.setFault x).fault = x := rfl
@[simp] theorem setFault_host (x : FaultRegs) : (s.setFault x).host = s.host := rfl
@[simp] theorem setFault_env (x : FaultRegs) : (s.setFault x).env = s.env := rfl
@[simp] theorem setFault_aux (x : FaultRegs) : (s.setFault x).aux = s.aux := rfl

/-! ### setHost -/

@[simp] theorem setHost_cfg (x : HostSide) : (s.setHost x).cfg = s.cfg := rfl
@[simp] theorem setHost_decs (x : HostSide) : (s.setHost x).decs = s.decs := rfl
@[simp] theorem setHost_q (x : HostSide) : (s.setHost x).q = s.q := rfl
@[simp] theorem setHost_prod (x : HostSide) : (s.setHost x).prod = s.prod := rfl
@[simp] theorem setHost_cons (x : HostSide) : (s.setHost x).cons = s.cons := rfl
@[simp] theorem setHost_fault (x : HostSide) : (s.setHost x).fault = s.fault := rfl
@[simp] theorem setHost_host (x : HostSide) : (s.setHost x).host = x := rfl
@[simp] theorem setHost_env (x : HostSide) : (s.setHost x).env = s.env := rfl
@[simp] theorem setHost_aux (x : HostSide) : (s.setHost x).aux = s.aux := rfl

/-! ### setEnv -/

@[simp] theorem setEnv_cfg (x : Env) : (s.setEnv x).cfg = s.cfg := rfl
@[simp] theorem setEnv_decs (x : Env) : (s.setEnv x).decs = s.decs := rfl
@[simp] theorem setEnv_q (x : Env) : (s.setEnv x).q = s.q := rfl
@[simp] theorem setEnv_prod (x : Env) : (s.setEnv x).prod = s.prod := rfl
@[simp] theorem setEnv_cons (x : Env) : (s.setEnv x).cons = s.cons := rfl
@[simp] theorem setEnv_fault (x : Env) : (s.setEnv x).fault = s.fault := rfl
@[simp] theorem setEnv_host (x : Env) : (s.setEnv x).host = s.host := rfl
@[simp] theorem setEnv_env (x : Env) : (s.setEnv x).env = x := rfl
@[simp] theorem setEnv_aux (x : Env) : (s.setEnv x).aux = s.aux := rfl

/-! ### setAux -/

@[simp] theorem setAux_cfg (x : Aux) : (s.setAux x).cfg = s.cfg := rfl
@[simp] theorem setAux_decs (x : Aux) : (s.setAux x).decs = s.decs := rfl
@[simp] theorem setAux_q (x : Aux) : (s.setAux x).q = s.q := rfl
@[simp] theorem setAux_prod (x : Aux) : (s.setAux x).prod = s.prod := rfl
@[simp] theorem setAux_cons (x : Aux) : (s.setAux x).cons = s.cons := rfl
@[simp] theorem setAux_fault (x : Aux) : (s.setAux x).fault = s.fault := rfl
@[simp] theorem setAux_host (x : Aux) : (s.setAux x).host = s.host := rfl
@[simp] theorem setAux_env (x : Aux) : (s.setAux x).env = s.env := rfl
@[simp] theorem setAux_aux (x : Aux) : (s.setAux x).aux = x := rfl

/-! ### setDec -/

@[simp] theorem setDec_cfg (k : Nat) (d : Decoder) : (s.setDec k d).cfg = s.cfg := rfl
@[simp] theorem setDec_decs (k : Nat) (d : Decoder) : (s.setDec k d).decs = s.decs.set k d := rfl
@[simp] theorem setDec_q (k : Nat) (d : Decoder) : (s.setDec k d).q = s.q := rfl
@[simp] theorem setDec_prod (k : Nat) (d : Decoder) : (s.setDec k d).prod = s.prod := rfl
@[simp] theorem setDec_cons (k : Nat) (d : Decoder) : (s.setDec k d).cons = s.cons := rfl
@[simp] theorem setDec_fault (k : Nat) (d : Decoder) : (s.setDec k d).fault = s.fault := rfl
@[simp] theorem setDec_host (k : Nat) (d : Decoder) : (s.setDec k d).host = s.host := rfl
@[simp] theorem setDec_env (k : Nat) (d : Decoder) : (s.setDec k d).env = s.env := rfl
@[simp] theorem setDec_aux (k : Nat) (d : Decoder) : (s.setDec k d).aux = s.aux := rfl

/-! ### setReply -/

@[simp] theorem setReply_cfg (r : Reply) : (s.setReply r).cfg = s.cfg := rfl
@[simp] theorem setReply_decs (r : Reply) : (s.setReply r).decs = s.decs := rfl
@[simp] theorem setReply_q (r : Reply) : (s.setReply r).q = s.q := rfl
@[simp] theorem setReply_prod (r : Reply) : (s.setReply r).prod = s.prod := rfl
@[simp] theorem setReply_cons (r : Reply) : (s.setReply r).cons = s.cons := rfl
@[simp] theorem setReply_fault (r : Reply) : (s.setReply r).fault = s.fault := rfl
@[simp] theorem setReply_host (r : Reply) : (s.setReply r).host = { s.host with reply := r } := rfl
@[simp] theorem setReply_env (r : Reply) : (s.setReply r).env = s.env := rfl
@[simp] theorem setReply_aux (r : Reply) : (s.setReply r).aux = s.aux := rfl

/-! ### bumpFree -/

@[simp] theorem bumpFree_cfg : s.bumpFree.cfg = s.cfg := rfl
@[simp] theorem bumpFree_decs : s.bumpFree.decs = s.decs := rfl
@[simp] theorem bumpFree_q : s.bumpFree.q = s.q := rfl
@[simp] theorem bumpFree_prod : s.bumpFree.prod = s.prod := rfl
@[simp] theorem bumpFree_cons : s.bumpFree.cons = s.cons := rfl
@[simp] theorem bumpFree_fault : s.bumpFree.fault = s.fault := rfl
@[simp] theorem bumpFree_host : s.bumpFree.host = s.host := rfl
@[simp] theorem bumpFree_env : s.bumpFree.env = s.env := rfl
@[simp] theorem bumpFree_aux : s.bumpFree.aux = { s.aux with freeCtr := s.aux.freeCtr + 1 } := rfl

/-! ### raiseFatal -/

@[simp] theorem raiseFatal_cfg (c : FaultCode) (k row : Index8) (val : Entry) :
    (raiseFatal c k row val s).cfg = s.cfg := rfl
@[simp] theorem raiseFatal_decs (c : FaultCode) (k row : Index8) (val : Entry) :
    (raiseFatal c k row val s).decs = s.decs := rfl
@[simp] theorem raiseFatal_q (c : FaultCode) (k row : Index8) (val : Entry) :
    (raiseFatal c k row val s).q = s.q := rfl
@[simp] theorem raiseFatal_prod (c : FaultCode) (k row : Index8) (val : Entry) :
    (raiseFatal c k row val s).prod = s.prod := rfl
@[simp] theorem raiseFatal_cons (c : FaultCode) (k row : Index8) (val : Entry) :
    (raiseFatal c k row val s).cons = s.cons := rfl
@[simp] theorem raiseFatal_fault (c : FaultCode) (k row : Index8) (val : Entry) :
    (raiseFatal c k row val s).fault = { fatal := true, code := c, dec := k, row := row, val := val } := rfl
@[simp] theorem raiseFatal_host (c : FaultCode) (k row : Index8) (val : Entry) :
    (raiseFatal c k row val s).host = s.host := rfl
@[simp] theorem raiseFatal_env (c : FaultCode) (k row : Index8) (val : Entry) :
    (raiseFatal c k row val s).env = s.env := rfl
@[simp] theorem raiseFatal_aux (c : FaultCode) (k row : Index8) (val : Entry) :
    (raiseFatal c k row val s).aux = s.aux := rfl

/-! ### blockReset -/

@[simp] theorem blockReset_cfg : (blockReset s).cfg = s.cfg := rfl
@[simp] theorem blockReset_decs : (blockReset s).decs = [] := rfl
@[simp] theorem blockReset_q : (blockReset s).q = Queue.empty s.cfg.qcap := rfl
@[simp] theorem blockReset_prod : (blockReset s).prod = { prevTs := 0 } := rfl
@[simp] theorem blockReset_cons : (blockReset s).cons = Consumer.idle := rfl
@[simp] theorem blockReset_fault : (blockReset s).fault = FaultRegs.clear := rfl
@[simp] theorem blockReset_host : (blockReset s).host = { ccTimes := [], reply := .none } := rfl
@[simp] theorem blockReset_env : (blockReset s).env = s.env := rfl
@[simp] theorem blockReset_aux : (blockReset s).aux = { started := false, freeCtr := s.aux.freeCtr } := rfl

end Sys2Proof.Machine
end

