-- ==== Sys2Proof/Laws/Ring.lean ====
section
/-!
SUPPORT. The ring buffer: every queue operation keeps its one form (`Queue.wf`), reset has it, and a slot read after a write.
-/

namespace Sys2Proof.Machine

open Sys2Proof

variable {n : Nat} {q : Queue}

theorem nextIdx_lt (hn : 0 < n) (i : Nat) : nextIdx n i < n := Nat.mod_lt _ hn

theorem queueFull_iff : queueFull n q = true ↔ nextIdx n q.w = q.r := by simp [queueFull]

theorem queueEmpty_iff : queueEmpty q = true ↔ q.r = q.w := by simp [queueEmpty]

theorem Queue.empty_wf (hn : 0 < n) : (Queue.empty n).wf n := ⟨by simp [Queue.empty], hn, hn⟩

theorem queueDrop_wf (h : q.wf n) : (queueDrop n q).wf n :=
  ⟨h.1, nextIdx_lt (by have := h.2.1; omega) _, h.2.2⟩

theorem queueWrite_wf (e : Event) (h : q.wf n) : (queueWrite n e q).wf n :=
  ⟨by simpa [queueWrite] using h.1, h.2.1, nextIdx_lt (by have := h.2.1; omega) _⟩

theorem queuePush_wf (e : Event) (h : q.wf n) : (queuePush n e q).wf n := by
  unfold queuePush
  split_ifs
  · exact queueWrite_wf e (queueDrop_wf h)
  · exact queueWrite_wf e h

/-- The slot written is the one read (20_memory.md R76). -/
theorem queueWrite_read_same (e : Event) (h : q.wf n) : (queueWrite n e q).slots[q.w]? = some e := by
  have : q.w < q.slots.length := by rw [h.1]; exact h.2.2
  simp [queueWrite, this]

/-- Every other slot reads as before. -/
theorem queueWrite_read_other (e : Event) {i : Nat} (h : i ≠ q.w) :
    (queueWrite n e q).slots[i]? = q.slots[i]? := by
  simp [queueWrite, List.getElem?_set_ne (Ne.symm h)]

/-- The cursors after a push (44_signal_queue.md R272, R273). -/
theorem queuePush_w (e : Event) : (queuePush n e q).w = nextIdx n q.w := by
  unfold queuePush
  split_ifs <;> rfl

theorem queuePush_r (e : Event) : (queuePush n e q).r = if queueFull n q then nextIdx n q.r else q.r := by
  unfold queuePush
  split_ifs <;> rfl

theorem queuePush_slots (e : Event) : (queuePush n e q).slots = q.slots.set q.w e := by
  unfold queuePush
  split_ifs <;> rfl

/-- The number of events held, without the modulus. -/
theorem queueLen_val {n : Nat} {q : Queue} (h : Queue.wf n q) : queueLen n q = if q.r ≤ q.w then q.w - q.r else q.w + n - q.r := by
  obtain ⟨_, h2, h3⟩ := h
  unfold queueLen
  split_ifs with hc
  · rw [show q.w + n - q.r = (q.w - q.r) + n by omega, Nat.add_mod_right, Nat.mod_eq_of_lt (by omega)]
  · rw [Nat.mod_eq_of_lt (by omega)]

/-- The next cursor, without the modulus. -/
theorem nextIdx_val {n i : Nat} (h : i < n) : nextIdx n i = if i + 1 = n then 0 else i + 1 := by
  unfold nextIdx; split_ifs with hc
  · rw [hc, Nat.mod_self]
  · rw [Nat.mod_eq_of_lt (by omega)]

/-- The list holds `queueLen` events. -/
theorem queueList_length {n : Nat} {q : Queue} : (queueList n q).length = queueLen n q := by simp [queueList]

/-- At most `N - 1` events are held (R31). -/
theorem queueLen_le {n : Nat} {q : Queue} (h : Queue.wf n q) : queueLen n q ≤ n - 1 := by
  have := queueLen_val h; obtain ⟨_, h2, h3⟩ := h; split_ifs at this <;> omega

/-- Full means `N - 1` events (R31). -/
theorem queueFull_iff_len {n : Nat} {q : Queue} (hn : 2 ≤ n) (h : Queue.wf n q) : queueFull n q = true ↔ queueLen n q = n - 1 := by
  rw [queueFull_iff, nextIdx_val h.2.2, queueLen_val h]; obtain ⟨_, h2, h3⟩ := h; split_ifs <;> omega

/-- Empty means no event (R31). -/
theorem queueEmpty_iff_len {n : Nat} {q : Queue} (h : Queue.wf n q) : queueEmpty q = true ↔ queueLen n q = 0 := by
  rw [queueEmpty_iff, queueLen_val h]; obtain ⟨_, h2, h3⟩ := h; split_ifs <;> omega

/-- A drop takes one event. -/
theorem queueDrop_len {n : Nat} {q : Queue} (h : Queue.wf n q) (hne : queueLen n q ≠ 0) : queueLen n (queueDrop n q) + 1 = queueLen n q := by
  rw [queueLen_val (queueDrop_wf h), queueLen_val h] at *
  simp only [queueDrop, nextIdx_val h.2.1]
  obtain ⟨_, h2, h3⟩ := h; split_ifs at * <;> omega

/-- A write into a queue that is not full adds one event. -/
theorem queueWrite_len {n : Nat} {q : Queue} {e : Event} (h : Queue.wf n q) (hne : queueFull n q = false) :
    queueLen n (queueWrite n e q) = queueLen n q + 1 := by
  have hf : ¬ nextIdx n q.w = q.r := fun hh => by rw [queueFull_iff.mpr hh] at hne; cases hne
  rw [queueLen_val (queueWrite_wf e h), queueLen_val h]
  have hx := nextIdx_val h.2.2
  simp only [queueWrite] at *
  obtain ⟨_, h2, h3⟩ := h
  have hm : ∀ m, m = (if q.w + 1 = n then 0 else q.w + 1) → ¬ m = q.r →
     (if q.r ≤ m then m - q.r else m + n - q.r) = (if q.r ≤ q.w then q.w - q.r else q.w + n - q.r) + 1 := by
    intro m hm hne; split_ifs at * <;> omega
  exact hm _ hx hf

/-- The events held, by position from the oldest. -/
theorem queueList_get {n : Nat} {q : Queue} (j : Nat) (h : j < queueLen n q) :
    (queueList n q)[j]? = some ((q.slots[(q.r + j) % n]?).getD default) := by
  simp [queueList, h]

/-- A drop takes the oldest event. -/
theorem queueDrop_list {n : Nat} {q : Queue} (h : Queue.wf n q) (hne : queueLen n q ≠ 0) : queueList n (queueDrop n q) = (queueList n q).tail := by
  have hl := queueDrop_len h hne
  have h2 := h.2.1
  apply List.ext_getElem?
  intro j
  rw [List.getElem?_tail]
  by_cases hj : j < queueLen n (queueDrop n q)
  · rw [queueList_get _ hj, queueList_get _ (by omega)]
    simp only [queueDrop, nextIdx, Nat.mod_add_mod]
    rw [show q.r + 1 + j = q.r + (j+1) by omega]
  · rw [List.getElem?_eq_none (by rw [queueList_length]; omega), List.getElem?_eq_none (by rw [queueList_length]; omega)]

/-- A write into a queue that is not full appends its event. -/
theorem queueWrite_list {n : Nat} {q : Queue} {e : Event} (h : Queue.wf n q) (hne : queueFull n q = false) :
    queueList n (queueWrite n e q) = queueList n q ++ [e] := by
  have hl := queueWrite_len (e := e) h hne
  have hv := queueLen_val h
  have hf : ¬ nextIdx n q.w = q.r := fun hh => by rw [queueFull_iff.mpr hh] at hne; cases hne
  rw [nextIdx_val h.2.2] at hf
  obtain ⟨h1, h2, h3⟩ := h
  apply List.ext_getElem?
  intro j
  by_cases hj : j < queueLen n q
  · rw [queueList_get _ (by omega), List.getElem?_append_left (by rw [queueList_length]; omega), queueList_get _ hj]
    congr 2
    simp only [queueWrite]
    apply List.getElem?_set_ne
    have : (q.r + j) % n = if q.r + j < n then q.r + j else q.r + j - n := by
      split_ifs with hc
      · exact Nat.mod_eq_of_lt hc
      · rw [Nat.mod_eq_sub_mod (by omega), Nat.mod_eq_of_lt (by split_ifs at hv <;> omega)]
    rw [this]; split_ifs at * <;> omega
  · by_cases hj2 : j = queueLen n q
    · subst hj2
      rw [queueList_get _ (by omega), List.getElem?_append_right (by rw [queueList_length]), queueList_length]
      have : (q.r + queueLen n q) % n = q.w := by
        rw [hv]; split_ifs
        · rw [Nat.mod_eq_of_lt (by omega)]; omega
        · rw [show q.r + (q.w + n - q.r) = q.w + n by omega, Nat.add_mod_right, Nat.mod_eq_of_lt h3]
      simp only [queueWrite, this]
      rw [List.getElem?_set_self (by omega)]; simp
    · rw [List.getElem?_eq_none (by rw [queueList_length]; omega), List.getElem?_eq_none (by simp [queueList_length]; omega)]

end Sys2Proof.Machine
end

