-- ==== Sys2Proof/Laws/Rows.lean ====
section
/-!
SUPPORT. What one row evaluation can do (43_interpreter.md R228): the inversion lemma of `rowStep`, and for each row function
what it writes to the decoder.
-/

namespace Sys2Proof.Machine

open Sys2Proof

/-- The state after a defect of the row being evaluated. -/
theorem rowStep_error {f : Decoder → Event → Except Defect Decoder} {s : State} {d : Decoder} {e : Defect}
    (hd : s.decs[s.cons.cur]? = some d) (he : f d s.cons.hold = .error e) :
    rowStep f s = .next (raiseFatal e.code (BitVec.ofNat 8 s.cons.cur) d.status e.val s) := by
  simp only [rowStep, hd, he]

/-- The state after a row that completes. -/
theorem rowStep_ok {f : Decoder → Event → Except Defect Decoder} {s : State} {d d' : Decoder}
    (hd : s.decs[s.cons.cur]? = some d) (ho : f d s.cons.hold = .ok d') :
    rowStep f s = .next (s.setDec s.cons.cur d') := by
  simp only [rowStep, hd, ho]

/-- Everything a row evaluation that answers a next state can do. -/
theorem rowStep_next {f : Decoder → Event → Except Defect Decoder} {s t : State} (h : rowStep f s = .next t) :
    ∃ d, s.decs[s.cons.cur]? = some d ∧
      ((∃ d', f d s.cons.hold = .ok d' ∧ t = s.setDec s.cons.cur d') ∨
       (∃ e, f d s.cons.hold = .error e ∧
          t = raiseFatal e.code (BitVec.ofNat 8 s.cons.cur) d.status e.val s)) := by
  unfold rowStep at h
  split at h
  · cases h
  · next d hd =>
    refine ⟨d, hd, ?_⟩
    split at h
    · next d' ho => cases h; exact .inl ⟨d', ho, rfl⟩
    · next e he => cases h; exact .inr ⟨e, he, rfl⟩

/-- A row evaluation never refuses, and stops only where no decoder is being fed. -/
theorem rowStep_stops {f : Decoder → Event → Except Defect Decoder} {s : State} :
    (∃ t, rowStep f s = .next t) ∨ (rowStep f s = .fault .noSuchDecoder ∧ s.decs[s.cons.cur]? = none) := by
  unfold rowStep
  split
  · next h => exact .inr ⟨rfl, h⟩
  · split <;> exact .inl ⟨_, rfl⟩

/-- A row evaluation writes only `status`, the accumulator and `ready` of its decoder. -/
def RowWrites (d d' : Decoder) : Prop :=
  d' = { d with status := d'.status, v := d'.v, cnt := d'.cnt, ready := d'.ready }

/-- What each instruction's row function writes when it completes: a `status` inside the table, the accumulator only for
the bit rows, `ready` only for TERM. -/
theorem checkRow_ok {min max : Operand} {nt nf : Succ} {x : Entry} {d d' : Decoder}
    (h : checkRow min max nt nf x d = .ok d') :
    ∃ n, n.toNat < d.table.length ∧ d' = { d with status := n } := by
  unfold checkRow at h
  split at h
  · cases h
  · split at h
    · cases h
    · obtain ⟨n, hn, hc⟩ | ⟨e, _, hc⟩ := commitSucc_cases
        (if inRange _ _ x = true then nt else nf) d
      · rw [hc] at h; cases h; exact ⟨n, hn.lt, rfl⟩
      · rw [hc] at h; cases h

theorem terminateRow_ok {nt : Succ} {d d' : Decoder} (h : terminateRow nt d = .ok d') :
    ∃ n, n.toNat < d.table.length ∧ d' = { d with status := n, ready := true } := by
  unfold terminateRow at h
  obtain ⟨n, hn, hc⟩ | ⟨e, _, hc⟩ := commitSucc_cases nt d
  · rw [hc] at h; cases h; exact ⟨n, hn.lt, rfl⟩
  · rw [hc] at h; cases h

theorem resetRow_ok {nt : Succ} {d d' : Decoder} (h : resetRow nt d = .ok d') :
    ∃ n, n.toNat < d.table.length ∧ d' = { d with status := n, v := 0, cnt := 0 } := by
  unfold resetRow at h
  obtain ⟨n, hn, hc⟩ | ⟨e, _, hc⟩ := commitSucc_cases nt d
  · rw [hc] at h; cases h; exact ⟨n, hn.lt, rfl⟩
  · rw [hc] at h; cases h

theorem appendRow_ok {b : Bool} {nt : Succ} {d d' : Decoder} (h : appendRow b nt d = .ok d') :
    d.cnt ≠ d.nbits ∧ ∃ n, n.toNat < d.table.length ∧
      d' = { d with status := n, v := 2 * d.v + b.toNat, cnt := d.cnt + 1 } := by
  unfold appendRow accAddBit at h
  split_ifs at h with hc
  replace h : commitSucc nt { d with v := 2 * d.v + b.toNat, cnt := d.cnt + 1 } = .ok d' := h
  obtain ⟨n, hn, hk⟩ | ⟨e, _, hk⟩ := commitSucc_cases nt { d with v := 2 * d.v + b.toNat, cnt := d.cnt + 1 }
  · rw [hk] at h; cases h; exact ⟨hc, n, hn.lt, rfl⟩
  · rw [hk] at h; cases h

/-- One append keeps the accumulator inside its bounds (10_state.md R23, R24). -/
theorem append_keeps_bounds {d : Decoder} (b : Bool) (hi : d.Inv) (hc : d.cnt ≠ d.nbits) :
    (d.cnt + 1).toNat = d.cnt.toNat + 1 ∧ (d.cnt + 1).toNat ≤ d.nbits.toNat ∧
      2 * d.v + b.toNat < 2 ^ (d.cnt + 1).toNat := by
  have hne : d.cnt.toNat ≠ d.nbits.toNat := fun h => hc (BitVec.eq_of_toNat_eq h)
  have hle := hi.cnt_le
  have hlt := d.nbits.isLt
  have h1 : (d.cnt + 1).toNat = d.cnt.toNat + 1 := by
    rw [BitVec.toNat_add]
    simp
    omega
  have hb : b.toNat ≤ 1 := by cases b <;> simp
  have hv := hi.v_lt
  refine ⟨h1, by omega, ?_⟩
  rw [h1, Nat.pow_succ]
  omega

/-! ## The row function of an instruction -/

/-- What an instruction does to the decoder being fed. -/
def rowOf : Instr → Decoder → Event → Except Defect Decoder
  | .wait min max nt nf => fun d e => checkRow min max nt nf (levelValue e.lvl) d
  | .term nt => fun d _ => terminateRow nt d
  | .chkd min max nt nf => fun d e => checkRow min max nt nf e.d d
  | .rstb nt => fun d _ => resetRow nt d
  | .add0 nt => fun d _ => appendRow false nt d
  | .add1 nt => fun d _ => appendRow true nt d
  | .chkb min max nt nf => fun d _ => checkRow min max nt nf (d.cnt.setWidth 16) d

/-- Every instruction is one row evaluation. -/
theorem exec_eq_rowStep (i : Instr) (s : State) : exec i s = rowStep (rowOf i) s := by
  cases i <;> rfl

/-- A row that completes keeps its decoder's configuration and callbacks, sets `ready` only when it is TERM, and keeps the
decoder's invariant. -/
structure RowKeeps (i : Instr) (d d' : Decoder) : Prop where
  config : d'.config = d.config
  callbacks : d'.callbacks = d.callbacks
  ready : d'.ready = (d.ready || isTerm i)
  inv : d.Inv → d'.Inv

theorem rowOf_ok {i : Instr} {d d' : Decoder} {e : Event} (h : rowOf i d e = .ok d') : RowKeeps i d d' := by
  have check : ∀ n : Index8, n.toNat < d.table.length → isTerm i = false →
      RowKeeps i d { d with status := n } := fun n hn hi =>
    ⟨rfl, rfl, by simp [hi], fun v => ⟨v.1, v.2, v.3, v.4, v.5, hn, v.7, v.8⟩⟩
  cases i with
  | wait | chkd | chkb =>
    obtain ⟨n, hn, rfl⟩ := checkRow_ok h
    exact check n hn rfl
  | term nt =>
    obtain ⟨n, hn, rfl⟩ := terminateRow_ok h
    exact ⟨rfl, rfl, by simp [isTerm], fun v => ⟨v.1, v.2, v.3, v.4, v.5, hn, v.7, v.8⟩⟩
  | rstb nt =>
    obtain ⟨n, hn, rfl⟩ := resetRow_ok h
    exact ⟨rfl, rfl, by simp [isTerm],
      fun v => ⟨v.1, v.2, v.3, v.4, v.5, hn, Nat.zero_le _, Nat.one_pos⟩⟩
  | add0 nt =>
    obtain ⟨hc, n, hn, rfl⟩ := appendRow_ok h
    exact ⟨rfl, rfl, by simp [isTerm], fun v =>
      ⟨v.1, v.2, v.3, v.4, v.5, hn, (append_keeps_bounds false v hc).2.1, (append_keeps_bounds false v hc).2.2⟩⟩
  | add1 nt =>
    obtain ⟨hc, n, hn, rfl⟩ := appendRow_ok h
    exact ⟨rfl, rfl, by simp [isTerm], fun v =>
      ⟨v.1, v.2, v.3, v.4, v.5, hn, (append_keeps_bounds true v hc).2.1, (append_keeps_bounds true v hc).2.2⟩⟩

/-- A successor's defect is a real fault code. -/
theorem commitSucc_error {t : Succ} {d : Decoder} {e : Defect} (h : commitSucc t d = .error e) :
    SuccBad d t e.code e.val ∧ (e.code = .badOperand ∨ e.code = .badSuccessor) := by
  obtain ⟨n, _, hc⟩ | ⟨e', hb, hc⟩ := commitSucc_cases t d
  · rw [hc] at h; cases h
  · rw [hc] at h
    cases h
    refine ⟨hb, ?_⟩
    cases t with
    | direct m => exact .inr hb.2.1
    | indirect j =>
      obtain ⟨_, hc, _⟩ | ⟨_, _, _, hc, _⟩ := hb
      · exact .inl hc
      · exact .inr hc

/-- A check row raises `BAD_OPERAND` of the min operand, else of the max operand, else the defect of the branch taken
(43_interpreter.md R223). -/
theorem checkRow_error {min max : Operand} {nt nf : Succ} {x : Entry} {d : Decoder} {e : Defect}
    (h : checkRow min max nt nf x d = .error e) :
    (∃ y, OperandBad d min y ∧ e = badOperand y) ∨
    (∃ lo, OperandIs d min lo ∧ ((∃ y, OperandBad d max y ∧ e = badOperand y) ∨
      ∃ hi, OperandIs d max hi ∧ SuccBad d (if inRange lo hi x then nt else nf) e.code e.val ∧
        (e.code = .badOperand ∨ e.code = .badSuccessor))) := by
  unfold checkRow at h
  split at h
  · next h1 =>
    cases h
    obtain ⟨y, rfl, hy⟩ := (resolveOperand_error_iff d min _).mp h1
    exact .inl ⟨y, hy, rfl⟩
  · next lo h1 =>
    refine .inr ⟨lo, (resolveOperand_ok_iff d min lo).mp h1, ?_⟩
    split at h
    · next h2 =>
      cases h
      obtain ⟨y, rfl, hy⟩ := (resolveOperand_error_iff d max _).mp h2
      exact .inl ⟨y, hy, rfl⟩
    · next hi h2 =>
      obtain ⟨hb, hc⟩ := commitSucc_error h
      exact .inr ⟨hi, (resolveOperand_ok_iff d max hi).mp h2, hb, hc⟩

/-- An append row raises `BIT_OVERFLOW` at the target, otherwise the defect of its successor (R223). -/
theorem appendRow_error {b : Bool} {nt : Succ} {d : Decoder} {e : Defect} (h : appendRow b nt d = .error e) :
    (d.cnt = d.nbits ∧ e = { code := .bitOverflow, val := d.cnt.setWidth 16 }) ∨
    (d.cnt ≠ d.nbits ∧ SuccBad d nt e.code e.val ∧ (e.code = .badOperand ∨ e.code = .badSuccessor)) := by
  unfold appendRow accAddBit at h
  split_ifs at h with hc
  · cases h; exact .inl ⟨hc, rfl⟩
  · replace h : commitSucc nt { d with v := 2 * d.v + b.toNat, cnt := d.cnt + 1 } = .error e := h
    obtain ⟨hb, hk⟩ := commitSucc_error h
    refine .inr ⟨hc, ?_, hk⟩
    cases nt <;> exact hb

/-- TERM and RSTB raise only their successor's defect. -/
theorem terminateRow_error {nt : Succ} {d : Decoder} {e : Defect} (h : terminateRow nt d = .error e) :
    SuccBad d nt e.code e.val ∧ (e.code = .badOperand ∨ e.code = .badSuccessor) := by
  unfold terminateRow at h
  split at h
  · next h1 => cases h; exact commitSucc_error h1
  · cases h

theorem resetRow_error {nt : Succ} {d : Decoder} {e : Defect} (h : resetRow nt d = .error e) :
    SuccBad d nt e.code e.val ∧ (e.code = .badOperand ∨ e.code = .badSuccessor) := by
  unfold resetRow at h
  split at h
  · next h1 => cases h; exact commitSucc_error h1
  · cases h

/-- The codes a row evaluation raises (60_exceptions.md R341). -/
theorem rowOf_error_code {i : Instr} {d : Decoder} {ev : Event} {e : Defect} (h : rowOf i d ev = .error e) :
    e.code = .badOperand ∨ e.code = .badSuccessor ∨ e.code = .bitOverflow := by
  have two : (e.code = .badOperand ∨ e.code = .badSuccessor) →
      e.code = .badOperand ∨ e.code = .badSuccessor ∨ e.code = .bitOverflow := fun hh =>
    hh.elim .inl (fun h2 => .inr (.inl h2))
  cases i with
  | wait | chkd | chkb =>
    obtain ⟨y, _, rfl⟩ | ⟨_, _, ⟨y, _, rfl⟩ | ⟨_, _, _, hc⟩⟩ := checkRow_error h
    · exact .inl rfl
    · exact .inl rfl
    · exact two hc
  | term nt => exact two (terminateRow_error h).2
  | rstb nt => exact two (resetRow_error h).2
  | add0 nt | add1 nt =>
    obtain ⟨_, rfl⟩ | ⟨_, _, hc⟩ := appendRow_error h
    · exact .inr (.inr rfl)
    · exact two hc

/-- Everything `exec` can do when it answers a next state: commit one decoder's registers, or record a defect and nothing
else (43_interpreter.md R228, 60_exceptions.md R351). -/
theorem exec_next {i : Instr} {s t : State} (h : exec i s = .next t) :
    ∃ d, s.decs[s.cons.cur]? = some d ∧
      ((∃ d', rowOf i d s.cons.hold = .ok d' ∧ t = s.setDec s.cons.cur d') ∨
       (∃ e, rowOf i d s.cons.hold = .error e ∧
          t = raiseFatal e.code (BitVec.ofNat 8 s.cons.cur) d.status e.val s)) := by
  rw [exec_eq_rowStep] at h
  exact rowStep_next h

end Sys2Proof.Machine
end

