-- ==== Sys2Proof/Laws/Turns.lean ====
section
/-!
SUPPORT. Everything one action of an agent can do, said once: the consumer's actions (44_signal_queue.md R276 to R279) and the
host's (45_host_interface.md R310 to R326).
-/

namespace Sys2Proof.Machine

open Sys2Proof

/-! ## popTurn -/

variable (s : State)

@[simp] theorem popTurn_cfg : (popTurn s).cfg = s.cfg := rfl
@[simp] theorem popTurn_decs : (popTurn s).decs = s.decs := rfl
@[simp] theorem popTurn_q : (popTurn s).q = s.q := rfl
@[simp] theorem popTurn_prod : (popTurn s).prod = s.prod := rfl
@[simp] theorem popTurn_cons : (popTurn s).cons = s.cons := rfl
@[simp] theorem popTurn_fault : (popTurn s).fault = s.fault := rfl
@[simp] theorem popTurn_host : (popTurn s).host = s.host := rfl
@[simp] theorem popTurn_aux : (popTurn s).aux = s.aux := rfl
@[simp] theorem popTurn_hostOps : (popTurn s).env.hostOps = s.env.hostOps := rfl

variable {s} {t : State}

/-! ## The consumer -/

/-- What a feed that answers a next state did. -/
inductive FeedEffect (s : State) : State → Prop where
  /-- every decoder was fed -/
  | done (h : s.cons.cur = s.decs.length) : FeedEffect s (s.setCons { s.cons with phase := .retire })
  /-- a frozen decoder, or a `WAIT` row after the head row: go on to the next decoder -/
  | skip (d : Decoder) (h : s.decs[s.cons.cur]? = some d) : FeedEffect s (nextDecoder s)
  /-- a row raised a defect -/
  | defect (d : Decoder) (c : FaultCode) (x : Entry) (h : s.decs[s.cons.cur]? = some d)
      (hc : c = .badOpcode ∨ c = .badOperand ∨ c = .badSuccessor ∨ c = .bitOverflow) :
      FeedEffect s (rowFatal c d x s)
  /-- a row committed -/
  | row (d d' : Decoder) (w : Row) (i : Instr) (h : s.decs[s.cons.cur]? = some d)
      (hw : d.table[d.status.toNat]? = some w) (hi : decode w = .ok i) (ho : rowOf i d s.cons.hold = .ok d')
      (hr : s.cons.first = true → d.ready = false) :
      FeedEffect s (if isTerm i then nextDecoder (s.setDec s.cons.cur d')
        else (s.setDec s.cons.cur d').setCons { s.cons with first := false })

theorem feedEvent_next (hf : s.fault.fatal = false) (h : feedEvent s = .next t) : FeedEffect s t := by
  unfold feedEvent at h
  split_ifs at h with hc
  · cases h; exact .done hc
  split at h
  · cases h
  next d hd =>
  unfold feedDecoder at h
  split_ifs at h with hfr
  · cases h; exact .skip d hd
  split at h
  · cases h; exact .defect d _ _ hd (.inr (.inr (.inl rfl)))
  next w hw =>
  split_ifs at h with hwait
  · cases h; exact .skip d hd
  unfold evaluateRow at h
  split at h
  · cases h; exact .defect d _ _ hd (.inl rfl)
  next i hi =>
  split at h
  · next u hu =>
    cases h
    obtain ⟨d0, hd0, hcase⟩ := exec_next hu
    rw [hd] at hd0
    cases hd0
    obtain ⟨d', ho, rfl⟩ | ⟨e, he, rfl⟩ := hcase
    · have hr : s.cons.first = true → d.ready = false := by
        intro h1
        simpa [h1] using hfr
      have key := FeedEffect.row d d' w i hd hw hi ho hr
      simpa [afterRow, hf] using key
    · have := FeedEffect.defect (s := s) d e.code e.val hd (by
        rcases rowOf_error_code he with h1 | h1 | h1 <;> simp [h1])
      simpa [afterRow, rowFatal] using this
  · cases h
  · cases h

/-- A feed stops only where `cur` names no decoder and is not `NDEC`. -/
theorem feedEvent_stops (hle : s.cons.cur ≤ s.decs.length) : ∃ t, feedEvent s = .next t := by
  unfold feedEvent
  split_ifs with hc
  · exact ⟨_, rfl⟩
  have hlt : s.cons.cur < s.decs.length := by omega
  rw [List.getElem?_eq_getElem hlt]
  simp only [feedDecoder]
  split_ifs
  · exact ⟨_, rfl⟩
  split
  · exact ⟨_, rfl⟩
  split_ifs
  · exact ⟨_, rfl⟩
  unfold evaluateRow
  split
  · exact ⟨_, rfl⟩
  next i _ =>
  rw [exec_eq_rowStep]
  obtain ⟨u, hu⟩ | ⟨_, hn⟩ := @rowStep_stops (rowOf i) s
  · rw [hu]; exact ⟨_, rfl⟩
  · rw [List.getElem?_eq_getElem hlt] at hn; cases hn

/-- What a consumer turn that answers a next state did while the block is not halted. -/
inductive ConsumerEffect (s : State) : State → Prop where
  | disabled (hp : s.cons.phase = .idle) : ConsumerEffect s s
  | start (hp : s.cons.phase = .idle) (hb : s.cons.busy = false) (hq : s.q.r ≠ s.q.w) :
      ConsumerEffect s (startDrain s)
  | exit (hp : s.cons.phase = .fetch) (hq : s.q.r = s.q.w) :
      ConsumerEffect s (s.setCons { s.cons with busy := false, phase := .idle })
  | fetch (e : Event) (hp : s.cons.phase = .fetch) (hq : s.q.r ≠ s.q.w) (he : s.q.slots[s.q.r]? = some e) :
      ConsumerEffect s (s.setCons
        { s.cons with hold := e, holdValid := true, cur := 0, first := true, phase := .feed })
  | feed (t : State) (hp : s.cons.phase = .feed) (ht : FeedEffect s t) : ConsumerEffect s t
  | retire (hp : s.cons.phase = .retire) : ConsumerEffect s (retireEvent s)

theorem consumerTurn_next (hf : s.fault.fatal = false) (h : consumerTurn s = .next t) : ConsumerEffect s t := by
  unfold consumerTurn at h
  rw [if_neg (by simp [hf])] at h
  split at h
  · next hp =>
    cases h
    split_ifs with he
    · simp only [startEnabled, Bool.and_eq_true, Bool.not_eq_true', queueEmpty, beq_eq_false_iff_ne] at he
      exact .start hp he.1.2 he.2
    · exact .disabled hp
  · next hp =>
    unfold fetchEvent at h
    split_ifs at h with hq
    · cases h; exact .exit hp (queueEmpty_iff.mp hq)
    · split at h
      · cases h
      · next e he => cases h; exact .fetch e hp (fun hh => hq (queueEmpty_iff.mpr hh)) he
  · next hp => exact .feed t hp (feedEvent_next hf h)
  · next hp => cases h; exact .retire hp

/-! ## The host -/

/-- What an enabled host operation that answers a next state did. -/
inductive HostEffect (op : HostOp) (s : State) : State → Prop where
  /-- a reply, and perhaps a free value used up -/
  | reply (r : Reply) (n : Nat) : HostEffect op s
      ((s.setReply r).setAux { s.aux with freeCtr := s.aux.freeCtr + n })
  /-- a readout index out of range, or a registration defect -/
  | defect (c : FaultCode) (k : Index8) (x : Entry) (n : Nat) (hc : c = .bitIndex ∨ c = .config) :
      HostEffect op s ((raiseFatal c k 0 x s).setAux { s.aux with freeCtr := s.aux.freeCtr + n })
  /-- a registration -/
  | register (table : List Row) (params : List Entry) (nbits : Index8) (cbs : List CallbackSpec)
      (hn : s.decs.length < 255) (hi : (newDecoder table params nbits cbs).Inv) (hs : s.aux.started = false) :
      HostEffect op s (appendDecoder (newDecoder table params nbits cbs) s)
  | dispatch (now : Stamp) (ho : op = .dispatchReadyFrames now) : HostEffect op s (dispatchReady now s)
  | reset (k : Nat) (d : Decoder) (ho : op = .resetDecoder k) (hd : s.decs[k]? = some d) :
      HostEffect op s ((s.setDec k (decoderReset d)).setReply .done)

/-- A decoder a builder makes is in range (41_table_builder.md R160, R175 item 5). -/
theorem build_newDecoder_inv {enabled : Bool} {p : Template} {tp : TimingParams} {table : List Row}
    {params : List Entry} {nbits : Index8} {cbs : List CallbackSpec}
    (h : build enabled p tp = .ok (table, params, nbits)) : (newDecoder table params nbits cbs).Inv := by
  unfold build at h
  split at h
  · cases h
  next hn =>
  have h5 : ¬ (tp.bitCount == 0 || decide (255 < tp.bitCount)) = true := by
    have : (tp.bitCount == 0 || decide (255 < tp.bitCount)) = false :=
      firstItem_none hn (5, tp.bitCount == 0 || decide (255 < tp.bitCount)) (by simp [configItems])
    rw [this]
    exact Bool.false_ne_true
  cases h
  simp only [Bool.or_eq_true, beq_iff_eq, decide_eq_true_eq, not_or] at h5
  have hb : (BitVec.ofNat 8 tp.bitCount).toNat = tp.bitCount := by
    rw [BitVec.toNat_ofNat]; omega
  refine ⟨?_, ?_, ?_, ?_, ?_, ?_, ?_, ?_⟩
  · simp [newDecoder, templateRows]
  · simp [newDecoder, templateRows]
  · simp [newDecoder, paramVector]
  · simp [newDecoder, paramVector]
  · simp only [newDecoder, hb]; omega
  · simp [newDecoder, templateRows]
  · simp [newDecoder]
  · simp [newDecoder]

/-- A table in range makes a decoder in range (45_host_interface.md R313). -/
theorem table_newDecoder_inv {table : List Row} {params : List Entry} {nbits : Nat} {cbs : List CallbackSpec}
    (h : tableInRange table params nbits s = true) :
    (newDecoder table params (BitVec.ofNat 8 nbits) cbs).Inv ∧ s.decs.length < 255 := by
  simp only [tableInRange, Bool.and_eq_true, decide_eq_true_eq] at h
  have hb : (BitVec.ofNat 8 nbits).toNat = nbits := by
    rw [BitVec.toNat_ofNat]; omega
  refine ⟨⟨h.1.1.1.1.1.1, h.1.1.1.1.1.2, h.1.1.1.1.2, h.1.1.1.2, ?_, ?_, ?_, ?_⟩, h.2⟩
  · simp only [newDecoder, hb]; exact h.1.1.2
  · simp only [newDecoder]; exact h.1.1.1.1.1.1
  · simp [newDecoder]
  · simp [newDecoder]

/-- A readout is a reply. -/
theorem readoutReply_effect (op : HostOp) (d : Decoder) (a b : Reply) : HostEffect op s (readoutReply d a b s) := by
  unfold readoutReply
  split_ifs
  · exact HostEffect.reply a 0
  · exact HostEffect.reply b 1

theorem onDecoder_next {k : Nat} {f : Decoder → State} (h : onDecoder k f s = .next t) :
    ∃ d, s.decs[k]? = some d ∧ t = f d := by
  unfold onDecoder at h
  split at h
  · cases h
  · next d hd => cases h; exact ⟨d, hd, rfl⟩

theorem beforeFirstEdge_next {f : State → State} (h : beforeFirstEdge f s = .next t) :
    s.aux.started = false ∧ t = f s := by
  unfold beforeFirstEdge at h
  split_ifs at h with hs
  cases h
  exact ⟨by simpa using hs, rfl⟩

/-- Everything an enabled host operation can do. -/
theorem hostAct_next {op : HostOp} (h : hostAct op s = .next t) : HostEffect op s t := by
  have plain : ∀ r : Reply, HostEffect op s (s.setReply r) := fun r => HostEffect.reply r 0
  cases op with
  | registerDecoder tp cb =>
    obtain ⟨hs, rfl⟩ := beforeFirstEdge_next h
    unfold registerBuilt
    split
    · exact HostEffect.defect .config _ _ 0 (.inr rfl)
    · next hb =>
      split_ifs with hl
      · exact HostEffect.register _ _ _ _ hl (build_newDecoder_inv hb) hs
      · exact HostEffect.defect .config _ _ 1 (.inr rfl)
  | registerTable table params nbits cbs =>
    obtain ⟨hs, rfl⟩ := beforeFirstEdge_next h
    unfold registerTable
    split_ifs with hr
    · exact HostEffect.register _ _ _ _ (table_newDecoder_inv hr (cbs := cbs)).2
        (table_newDecoder_inv hr).1 hs
    · exact HostEffect.defect .config _ _ 0 (.inr rfl)
  | hasAnyFrameReady => cases h; exact plain _
  | blockUntilFrameReady => cases h; exact plain _
  | dispatchReadyFrames now => cases h; exact HostEffect.dispatch now rfl
  | resetDecoder k =>
    obtain ⟨d, hd, rfl⟩ := onDecoder_next h
    exact HostEffect.reset k d rfl hd
  | bitCount k => obtain ⟨d, _, rfl⟩ := onDecoder_next h; exact readoutReply_effect _ d _ _
  | byteCount k => obtain ⟨d, _, rfl⟩ := onDecoder_next h; exact readoutReply_effect _ d _ _
  | nthBit k i =>
    obtain ⟨d, _, rfl⟩ := onDecoder_next h
    unfold readNthBit
    split_ifs
    · exact readoutReply_effect _ d _ _
    · exact HostEffect.defect .bitIndex _ _ 0 (.inl rfl)
  | nthByte k i =>
    obtain ⟨d, _, rfl⟩ := onDecoder_next h
    unfold readNthByte
    split_ifs
    · exact readoutReply_effect _ d _ _
    · exact HostEffect.defect .bitIndex _ _ 0 (.inl rfl)
  | toHexString k => obtain ⟨d, _, rfl⟩ := onDecoder_next h; exact readoutReply_effect _ d _ _
  | compareFrame k f => obtain ⟨d, _, rfl⟩ := onDecoder_next h; exact readoutReply_effect _ d _ _
  | readFault => cases h; exact plain _
  | waitChannelClear x => cases h; exact plain _
  | readCfg => cases h; exact plain _
  | readDcfg k => obtain ⟨d, _, rfl⟩ := onDecoder_next h; exact plain _
  | readDstat k => obtain ⟨d, _, rfl⟩ := onDecoder_next h; exact plain _

/-- Where a host operation does not answer a next state: the two refusals of the spec. -/
theorem hostAct_stops (op : HostOp) : (∃ t, hostAct op s = .next t) ∨
    hostAct op s = .refused .registrationAfterFirstEdge ∨ hostAct op s = .refused .noSuchHandle := by
  have onDec : ∀ (k : Nat) (f : Decoder → State), (∃ t, onDecoder k f s = .next t) ∨
      onDecoder k f s = .refused .registrationAfterFirstEdge ∨ onDecoder k f s = .refused .noSuchHandle := by
    intro k f
    unfold onDecoder
    split
    · exact .inr (.inr rfl)
    · exact .inl ⟨_, rfl⟩
  have bfe : ∀ f : State → State, (∃ t, beforeFirstEdge f s = .next t) ∨
      beforeFirstEdge f s = .refused .registrationAfterFirstEdge ∨ beforeFirstEdge f s = .refused .noSuchHandle := by
    intro f
    unfold beforeFirstEdge
    split_ifs
    · exact .inr (.inl rfl)
    · exact .inl ⟨_, rfl⟩
  cases op <;> first | exact .inl ⟨_, rfl⟩ | exact onDec _ _ | exact bfe _

/-! ## One step -/

/-- Every row evaluation of a registered decoder completes or records a defect. -/
theorem exec_completes {i : Instr} {s : State} {d : Decoder} (hd : s.decs[s.cons.cur]? = some d) : ∃ t, exec i s = .next t := by
  rw [exec_eq_rowStep]
  obtain ⟨t, ht⟩ | ⟨_, hn⟩ := @rowStep_stops (rowOf i) s
  · exact ⟨t, ht⟩
  · rw [hd] at hn; cases hn

/-- The consumer's turn. -/
theorem step_consumer {s : State} (h : nextTurn s = .consumer) : step s = consumerTurn (popTurn s) := by
  simp [step, h, runTurn]

/-- The producer's turn (44_signal_queue.md R272). -/
theorem step_edge {s : State} {ts : Stamp} {lvl : Bool} (h : nextTurn s = .edge ts lvl) (hf : s.fault.fatal = false) :
    step s = .next (push ts lvl (popTurn s)) := by
  simp [step, h, runTurn, edgeTurn, hf]

/-- The host's turn. -/
theorem step_host {s : State} (h : nextTurn s = .host) : step s = hostTurn (popTurn s) := by simp [step, h, runTurn]

/-- What the host's turn can do: nothing, or its oldest pending operation. -/
theorem hostTurn_next {s t : State} (h : hostTurn s = .next t) :
    t = s ∨ ∃ op rest, s.env.hostOps = op :: rest ∧ hostEnabled s op = true ∧
      hostAct op (s.setEnv { s.env with hostOps := rest }) = .next t := by
  unfold hostTurn at h
  split at h
  · cases h; exact .inl rfl
  · next op rest ho =>
    split_ifs at h with he
    · exact .inr ⟨op, rest, ho, he, h⟩
    · cases h; exact .inl rfl

/-- What the expiry of a timeout can do: nothing, or a reply. -/
theorem timeoutTurn_next {s t : State} (h : timeoutTurn s = .next t) :
    t = s ∨ ∃ r x rest, s.env.hostOps = .waitChannelClear x :: rest ∧
      t = (s.setEnv { s.env with hostOps := rest }).setReply r := by
  unfold timeoutTurn at h
  split at h
  · next x rest ho =>
    split_ifs at h
    · cases h; exact .inr ⟨_, _, _, ho, rfl⟩
    · cases h; exact .inl rfl
  · cases h; exact .inl rfl

/-- The invariant does not read the producer, the host side, the environment and the bookkeeping. -/
theorem inv_congr {s t : State} (h : s.Inv) (h1 : t.cfg = s.cfg) (h2 : t.decs = s.decs)
    (h3 : t.q = s.q) (h4 : t.cons = s.cons) (h5 : t.fault = s.fault) : t.Inv := by
  obtain ⟨a1,a2,a3,a4,a5,a6,a7,a8,a9,a10,a11,a12,a13⟩ := h
  constructor <;> (try rw [h1]) <;> (try rw [h2]) <;> (try rw [h3]) <;> (try rw [h4]) <;> (try rw [h5]) <;> assumption

/-- Taking a turn off the list keeps the invariant. -/
theorem popTurn_inv {s : State} (h : s.Inv) : (popTurn s).Inv := inv_congr h rfl rfl rfl rfl rfl

end Sys2Proof.Machine
end

