-- ==== Sys2Proof/Tests/Slice0.lean ====
section
/-!
SUPPORT. Tests of the model: expected values come from spec/ (the vectors of 95_test_vectors.md, the words of
30_encoding.md §7), one step each. The theorems `witness_…` show, for a statement of Obligations.lean with hypotheses, concrete
operands that meet all of them, at the ends of their ranges.
-/

namespace Sys2Proof.Tests

open Sys2Proof Sys2Proof.Machine

/-! ## Helpers -/

/-- The next state of an outcome, if it has one. -/
def after (o : Host.Outcome State Fault Refusal) : Option State :=
  match o with
  | .next t => some t
  | .fault _ => none
  | .refused _ => none

/-- The refusal of an outcome, if it has one. -/
def refusal (o : Host.Outcome State Fault Refusal) : Option Refusal :=
  match o with
  | .refused r => some r
  | .next _ => none
  | .fault _ => none

/-- The table of program P1 (95_test_vectors.md §9). -/
def p1 : List Row :=
  [0x0000000000010000, 0x27000900030F0080, 0x3F00000000030000, 0x0000010001040000, 0x2500010002050600,
   0x0000000000070000, 0x2500030004090000, 0x2500070008080100, 0x4F000000000C0000, 0x00000000000A0000,
   0x25000500060B0100, 0x5F000000000C0000, 0x6F00010004030D00, 0x1F000000000D0000]

/-- The parameter vector `PV1` (95_test_vectors.md §9). -/
def pv1 : List Entry := [0, 7, 62, 63, 129, 7, 62, 63, 129, 158, 0, 0, 0, 0, 8, 2, 0, 0, 0]

/-- A decoder with `LEN = 14`, `NPARAM = 19`, `NBITS = 8` (95_test_vectors.md §5). -/
def dec (status : Index8) (v : Nat) (cnt : Index8) (ready : Bool) : Decoder :=
  { table := p1, params := pv1, nbits := 8, status := status, v := v, cnt := cnt, ready := ready, callbacks := [] }

/-- The same with row `w` at `status`. -/
def decRow (w : Row) (d : Decoder) : Decoder := { d with table := d.table.set d.status.toNat w }

/-- A block of four slots that holds the event `e`, with the consumer in a phase. -/
def block (ds : List Decoder) (e : Event) (ph : Phase) (first : Bool) : State :=
  let z := State.resetOf { BuildCfg.default with qcapLog2 := 2 }
  { z with
    decs := ds
    q := { slots := z.q.slots.set 0 e, r := 0, w := 1 }
    cons := { busy := ph != .idle, hold := e, holdValid := ph == .feed || ph == .retire, phase := ph, cur := 0,
              first := first }
    env := { turns := [.consumer], hostOps := [] } }

/-- The same with a turn and pending host operations. -/
def withInputs (t : Turn) (ops : List HostOp) (s : State) : State := { s with env := { turns := [t], hostOps := ops } }

/-- The event `(d, lvl)`. -/
def ev (d : Entry) (lvl : Bool) : Event := { d := d, lvl := lvl }

/-- Decoder 0's registers and the fault record. -/
structure View where
  status : Index8
  v : Nat
  cnt : Index8
  ready : Bool
  fault : FaultRegs
deriving DecidableEq, Repr

/-- The view of a state. -/
def view (s : State) : Option View :=
  (s.decs[0]?).map fun d => { status := d.status, v := d.v, cnt := d.cnt, ready := d.ready, fault := s.fault }

/-- One step of the feed at row `w` of decoder `d`. -/
def feedRow (w : Row) (d : Decoder) (e : Event) : Option View :=
  (after (step (block [decRow w d] e .feed true))).bind view

/-- A decoder's registers with no fault. -/
def good (status : Index8) (v : Nat) (cnt : Index8) (ready : Bool) : Option View :=
  some { status := status, v := v, cnt := cnt, ready := ready, fault := FaultRegs.clear }

/-- A decoder's registers with a fault of decoder 0. -/
def bad (status : Index8) (v : Nat) (cnt : Index8) (code : FaultCode) (x : Entry) : Option View :=
  some { status := status, v := v, cnt := cnt, ready := false,
         fault := { fatal := true, code := code, dec := 0, row := status, val := x } }

/-! ## Well-formedness -/

theorem test_wf_refuses_named_sentinel_code :
    (Sentinel.reserved 0).wf = false ∧ (Sentinel.reserved 4).wf = false ∧ (Sentinel.reserved 5).wf = true ∧
    (Operand.sen (.reserved 3)).wf = false := by decide

theorem test_wf_refuses_wait :
    (Instr.wait (.sen (.reserved 3)) (.lit 0) (.direct 0) (.direct 0)).wf = false ∧
    (Instr.wait (.lit 0) (.sen (.reserved 3)) (.direct 0) (.direct 0)).wf = false := by decide

theorem test_wf_refuses_chkd :
    (Instr.chkd (.sen (.reserved 0)) (.lit 0) (.direct 0) (.direct 0)).wf = false ∧
    (Instr.chkd (.lit 0) (.sen (.reserved 4)) (.direct 0) (.direct 0)).wf = false := by decide

theorem test_wf_refuses_chkb :
    (Instr.chkb (.sen (.reserved 1)) (.lit 0) (.direct 0) (.direct 0)).wf = false ∧
    (Instr.chkb (.lit 0) (.sen (.reserved 2)) (.direct 0) (.direct 0)).wf = false := by decide

/-! ## Decoding (30_encoding.md §7 and 95_test_vectors.md §5) -/

/-- Bit by bit from R100: OP, KMIN, KMAX, VMIN, VMAX, NT, NF, IT, IF, RES. -/
theorem test_decode_fields :
    decode (0b0010#4 ++ 0b01#2 ++ 0b10#2 ++ 0x0001#16 ++ 0x0010#16 ++ 0x02#8 ++ 0x03#8 ++ 0#1 ++ 0#1 ++ 0#6) =
      .ok (.chkd (.par 1) (.pind 16) (.direct 2) (.direct 3)) ∧
    decode (0b0000#4 ++ 0b00#2 ++ 0b11#2 ++ 0x1234#16 ++ 0x0003#16 ++ 0xAB#8 ++ 0xCD#8 ++ 0#1 ++ 1#1 ++ 0#6) =
      .ok (.wait (.lit 0x1234) (.sen .max) (.direct 0xAB) (.indirect 0xCD)) ∧
    decode (0b0110#4 ++ 0b11#2 ++ 0b11#2 ++ 0xFFFF#16 ++ 0x0000#16 ++ 0x00#8 ++ 0xFF#8 ++ 1#1 ++ 0#1 ++ 0#6) =
      .ok (.chkb (.sen (.reserved 0xFFFF)) (.sen .dc) (.indirect 0) (.direct 0xFF)) := by decide

theorem test_decode_short_rows :
    decode 0x3F000000000F0080 = .ok (.rstb (.indirect 15)) ∧ decode 0x3F00090000030000 = .ok (.rstb (.direct 3)) ∧
    decode 0x4F00000000C80000 = .ok (.add0 (.direct 200)) ∧ decode 0x5F000000000C0000 = .ok (.add1 (.direct 12)) ∧
    decode 0x1F000000000D0000 = .ok (.term (.direct 13)) := by decide

theorem test_decode_refuses :
    decode 0x7000000000000000 = .error (.reservedOpcode 7) ∧ decode 0x9F0000000000FF00 = .error (.reservedOpcode 9) ∧
    decode 0x0000000000010001 = .error (.reservedBits 0) ∧ decode 0xF000000000000020 = .error (.reservedBits 15) := by
  decide

/-- The bytes of a row, the most significant first (R74), and too few bytes (R121). -/
theorem test_decode_bytes :
    decodeBytes [0x1F, 0, 0, 0, 0, 0x0D, 0, 0, 0x77] = .ok (.term (.direct 13), [0x77]) ∧
    decodeBytes [0x1F, 0, 0, 0, 0, 0x0D, 0] = .error .truncated ∧
    decodeTableWord 64 0x2600010010020300 = some (.chkd (.par 1) (.pind 16) (.direct 2) (.direct 3)) ∧
    decodeTableWord 64 0x7000000000000000 = none := by decide

/-- The assembler's words (30_encoding.md §7). -/
theorem test_encode_words :
    encode (.wait (.sen .zero) (.sen .one) (.indirect 15) (.direct 0)) = 0x0F000100020F0080 ∧
    encode (.chkd (.par 1) (.pind 16) (.direct 2) (.direct 3)) = 0x2600010010020300 ∧
    encode (.rstb (.direct 3)) = 0x3F00000000030000 ∧ encode (.term (.direct 13)) = 0x1F000000000D0000 ∧
    encode (jmp (.direct 5)) = 0x6F00010003050500 ∧ encode (wany (.direct 2)) = 0x0F00010002020200 ∧
    encode (wlvl 1 (.direct 4) (.direct 0)) = 0x0000010001040000 := by decide

/-- A reserved sentinel round-trips; every boundary of the operand kinds is well formed. -/
theorem witness_DecodeOfEncode :
    (Instr.chkd (.sen (.reserved 5)) (.sen (.reserved 0xFFFF)) (.indirect 255) (.direct 0)).wf = true ∧
    decode (encode (.chkd (.sen (.reserved 5)) (.sen (.reserved 0xFFFF)) (.indirect 255) (.direct 0))) =
      .ok (.chkd (.sen (.reserved 5)) (.sen (.reserved 0xFFFF)) (.indirect 255) (.direct 0)) := by decide

/-- Words that decode, of every `OP` class of the statement. -/
theorem witness_EncodeOfDecode :
    decode 0x0000010001040000 = .ok (.wait (.lit 1) (.lit 1) (.direct 4) (.direct 0)) ∧ rowOp 0x0000010001040000 = 0 ∧
    decode 0x2600010010020300 = .ok (.chkd (.par 1) (.pind 16) (.direct 2) (.direct 3)) ∧ rowOp 0x2600010010020300 = 2 ∧
    decode 0x6F00010004030D00 = .ok (.chkb (.sen .zero) (.sen .nbm1) (.direct 3) (.direct 13)) ∧
    rowOp 0x6F00010004030D00 = 6 ∧
    decode 0x1FFFFFFFFF0DFF40 = .ok (.term (.direct 13)) ∧ rowOp 0x1FFFFFFFFF0DFF40 = 1 ∧
    decode 0x3F00090000030000 = .ok (.rstb (.direct 3)) ∧ rowOp 0x3F00090000030000 = 3 ∧
    decode 0x40000000000C0080 = .ok (.add0 (.indirect 12)) ∧ rowOp 0x40000000000C0080 = 4 ∧
    decode 0x5F000000000C0000 = .ok (.add1 (.direct 12)) ∧ rowOp 0x5F000000000C0000 = 5 := by decide

theorem witness_MaskSelectsOperation :
    (6 : BitVec 4).toNat ≤ 6 ∧
    (0x6FFFFFFFFFFFFFC0 : Row) &&& 0xF00000000000003F#64 = (6 : BitVec 4).setWidth 64 <<< 60 ∧
    (0x0000000000010000 : Row) &&& 0xF00000000000003F#64 = (0 : BitVec 4).setWidth 64 <<< 60 ∧
    (decode 0x6FFFFFFFFFFFFFC0).toOption.map Instr.opcode = some 6 := by decide

/-- The first and the last byte of a row. -/
theorem witness_TableImageRoundTrip :
    0 < 8 ∧ 7 < 8 ∧ (rowBytes 0x2600010010020304)[0]? = some 0x26 ∧ (rowBytes 0x2600010010020304)[7]? = some 0x04 ∧
    parseImage 2 (tableImage [0x1F000000000D0000, 0x3F00000000030000]) =
      some [0x1F000000000D0000, 0x3F00000000030000] := by decide

/-! ## One row at a time (95_test_vectors.md §5) -/

/-- V-I1, V-I2, V-I3, V-I4. -/
theorem test_wait :
    feedRow 0x0000010001040000 (dec 3 0 0 false) (ev 0 true) = good 4 0 0 false ∧
    feedRow 0x0000010001040000 (dec 3 0 0 false) (ev 0 false) = good 0 0 0 false ∧
    feedRow 0x0000010000040000 (dec 3 0 0 false) (ev 0 true) = good 0 0 0 false ∧
    feedRow 0x0F00010002020200 (dec 3 0 0 false) (ev 0 false) = good 2 0 0 false := by decide

/-- V-I5 to V-I10, V-I20. -/
theorem test_chkd :
    feedRow 0x2500010002050600 (dec 4 0 0 false) (ev 6 true) = good 6 0 0 false ∧
    feedRow 0x2500010002050600 (dec 4 0 0 false) (ev 7 true) = good 5 0 0 false ∧
    feedRow 0x2500010002050600 (dec 4 0 0 false) (ev 62 true) = good 5 0 0 false ∧
    feedRow 0x2500010002050600 (dec 4 0 0 false) (ev 63 true) = good 6 0 0 false ∧
    feedRow 0x27000900030F0080 (dec 1 0 0 false) (ev 255 true) = good 2 0 0 false ∧
    feedRow 0x27000900030F0080 (dec 1 0 0 false) (ev 157 true) = good 0 0 0 false ∧
    feedRow 0x2000640032010000 (dec 1 0 0 false) (ev 75 true) = good 0 0 0 false := by decide

/-- V-F4, V-F5, V-F6, V-F7, V-F9, V-F10, V-F11. -/
theorem test_chkd_defects :
    feedRow 0x2F00000003000000 (dec 0 0 0 false) (ev 5 false) = bad 0 0 0 .badOperand 0 ∧
    feedRow 0x2F00050003010000 (dec 0 0 0 false) (ev 5 false) = bad 0 0 0 .badOperand 5 ∧
    feedRow 0x2D00000032010000 (dec 0 0 0 false) (ev 5 false) = bad 0 0 0 .badOperand 0 ∧
    feedRow 0x2B00190003010000 (dec 0 0 0 false) (ev 5 false) = bad 0 0 0 .badOperand 25 ∧
    feedRow 0x27000900031E0080 (dec 0 0 0 false) (ev 200 false) = bad 0 0 0 .badOperand 30 ∧
    feedRow 0x27000900031E0080 (dec 1 0 0 false) (ev 100 false) = good 0 0 0 false ∧
    feedRow 0x27000900030E0000 (dec 0 0 0 false) (ev 200 false) = bad 0 0 0 .badSuccessor 14 := by decide

/-- V-I14, V-I15, V-I18. -/
theorem test_chkb :
    feedRow 0x6F00010004030D00 (dec 12 0 7 false) (ev 0 true) = good 3 0 7 false ∧
    feedRow 0x6F00010004030D00 (dec 12 0 8 false) (ev 0 true) = good 13 0 8 false ∧
    feedRow 0x6F00010003050500 (dec 12 0 8 false) (ev 0 true) = good 5 0 8 false := by decide

/-- V-I16: the burst ends; V-I19. -/
theorem test_term :
    feedRow 0x1F000000000D0000 (dec 13 0xA5 8 false) (ev 0 true) = good 13 0xA5 8 true ∧
    (after (step (block [dec 13 0xA5 8 false] (ev 0 true) .feed true))).map (fun t => (t.cons.cur, t.cons.first)) =
      some (1, true) ∧
    feedRow 0x1F00000000000000 (dec 0 0 0 false) (ev 0 true) = good 0 0 0 true := by decide

/-- V-I11, V-I21, V-F15: `ready` and the unread fields do not matter. -/
theorem test_rstb :
    feedRow 0x3F00000000030000 (dec 2 2 2 false) (ev 0 true) = good 3 0 0 false ∧
    feedRow 0x3F000000000F0080 (dec 2 2 2 false) (ev 0 true) = good 2 0 0 false ∧
    feedRow 0x3F00090000030000 (dec 2 2 2 false) (ev 0 true) = good 3 0 0 false := by decide

/-- V-I12, V-F13, V-F14. -/
theorem test_add0 :
    feedRow 0x4F000000000C0000 (dec 8 1 1 false) (ev 0 true) = good 12 2 2 false ∧
    feedRow 0x4F00000000C80000 (dec 8 0xA5 8 false) (ev 0 true) = bad 8 0xA5 8 .bitOverflow 8 ∧
    feedRow 0x4F00000000C80000 (dec 8 5 3 false) (ev 0 true) = bad 8 5 3 .badSuccessor 200 := by decide

/-- V-I13. -/
theorem test_add1 :
    feedRow 0x5F000000000C0000 (dec 11 0x52 7 false) (ev 0 true) = good 12 0xA5 8 false ∧
    feedRow 0x5F000000000C0000 (dec 11 0xA5 8 false) (ev 0 true) = bad 11 0xA5 8 .bitOverflow 8 := by decide

/-- V-F1, V-F2, V-F3. -/
theorem test_illegal_rows :
    feedRow 0x7000000000000000 (dec 0 0 0 false) (ev 0 true) = bad 0 0 0 .badOpcode 7 ∧
    feedRow 0x0000000000010001 (dec 0 0 0 false) (ev 0 true) = bad 0 0 0 .badOpcode 0 ∧
    feedRow 0x9F0000000000FF00 (dec 0 0 0 false) (ev 0 true) = bad 0 0 0 .badOpcode 9 := by decide

/-- V-F16, V-I22: a WAIT row with RES = 1 after the head row ends the burst; a frozen decoder is skipped. -/
theorem test_burst_ends :
    (after (step (block [decRow 0x0000000000010001 (dec 0 0 0 false)] (ev 0 true) .feed false))).map
      (fun t => (t.cons.cur, t.cons.first, t.fault.fatal)) = some (1, true, false) ∧
    (after (step (block [dec 13 0xA5 8 true] (ev 0 true) .feed true))).map
      (fun t => (t.cons.cur, t.decs)) = some (1, [dec 13 0xA5 8 true]) := by decide

/-- The fetched word runs as the first instruction after reset, and right after a fault too. -/
theorem test_withFetchWord :
    (after (step (State.reset.withFetchWord 64 0x4F00000000000000))).bind view = good 0 0 1 false ∧
    (after (step ((raiseFatal .config 0 0 8 State.reset).withFetchWord 64 0x1F00000000000000))).bind view =
      good 0 0 0 true ∧
    (after (step (State.reset.withFetchWord 64 0x7000000000000000))).bind view = bad 0 0 0 .badOpcode 7 := by decide

/-! ## The queue and the consumer (95_test_vectors.md §6) -/

/-- A block with a producer time and cursors. -/
def queueAt (prev : Stamp) (compressed : Bool) (r w : Nat) : State :=
  let z := State.resetOf { BuildCfg.default with qcapLog2 := 2, compress := compressed }
  { z with prod := { prevTs := prev }, q := { z.q with r := r, w := w } }

/-- What an edge leaves: the slot at the old `w`, the cursors, the producer's time. -/
structure EdgeView where
  slot : Option Event
  r : Nat
  w : Nat
  prev : Stamp
deriving DecidableEq, Repr

/-- The view after one edge. -/
def edgeView (ts : Stamp) (lvl : Bool) (s : State) : Option EdgeView :=
  (after (step (withInputs (.edge ts lvl) [] s))).map fun t =>
    { slot := t.q.slots[s.q.w]?, r := t.q.r, w := t.q.w, prev := t.prod.prevTs }

/-- V-Q1 to V-Q5, V-Q9. -/
theorem test_push :
    edgeView 7000 false (queueAt 0 true 0 0) = some ⟨some (ev 166 false), 0, 1, 7000⟩ ∧
    edgeView 0x100 true (queueAt 0xFFFFFF00 true 0 0) = some ⟨some (ev 32 true), 0, 1, 0x100⟩ ∧
    edgeView 100000 true (queueAt 0 true 0 0) = some ⟨some (ev 255 true), 0, 1, 100000⟩ ∧
    edgeView 100000 true (queueAt 0 false 0 0) = some ⟨some (ev 65535 true), 0, 1, 100000⟩ ∧
    edgeView 5000 false (queueAt 5000 true 0 0) = some ⟨some (ev 0 false), 0, 1, 5000⟩ ∧
    edgeView 5016 true (queueAt 5000 true 1 0) = some ⟨some (ev 1 true), 2, 1, 5016⟩ := by decide

/-- V-Q6, V-Q7, V-Q8. -/
theorem test_start_and_exit :
    (after (step (withInputs .consumer [] (queueAt 0 true 2 2)))).map (fun t => t.cons) = some Consumer.idle ∧
    (after (step (withInputs .consumer [] (queueAt 0 true 2 3)))).map (fun t => (t.cons.busy, t.cons.phase)) =
      some (true, .fetch) ∧
    (after (step (withInputs .consumer []
      { queueAt 0 true 2 2 with cons := { Consumer.idle with busy := true, phase := .fetch } }))).map
      (fun t => (t.cons.busy, t.cons.phase)) = some (false, .idle) := by decide

/-- V-Q10, V-Q11, V-Q12. -/
theorem test_retire_and_empty_feed :
    (after (step (withInputs .consumer []
      { queueAt 0 true 2 1 with cons := { Consumer.idle with busy := true, phase := .retire } }))).map
      (fun t => (t.q.r, t.cons.phase)) = some (2, .fetch) ∧
    (after (step (withInputs .consumer []
      { queueAt 0 true 3 1 with cons := { Consumer.idle with busy := true, phase := .retire, holdValid := true } }))).map
      (fun t => (t.q.r, t.cons.holdValid)) = some (0, false) ∧
    (after (step (block [] (ev 1 true) .feed true))).map (fun t => t.cons.phase) = some .retire := by decide

/-! ## Compressor, builder, accumulator (95_test_vectors.md §2 to §4) -/

/-- V-C3, V-C4, V-C6 to V-C9, V-C14 to V-C16, V-C18 to V-C22. -/
theorem test_compress :
    [16, 500, 2047, 2048, 2175, 2176, 17407, 17408, 17279, 21503, 21504, 46079, 46080, 65535].map
      (fun u => (compress8 u).toNat) = [1, 31, 127, 128, 128, 129, 247, 248, 246, 248, 249, 254, 255, 255] := by decide

/-- V-U2, V-U4 to V-U8. -/
theorem test_uncompact :
    [31, 127, 129, 247, 254, 255].map (fun c => (uncompact8 c).toNat) = [496, 2032, 2176, 17280, 41984, 46080] := by decide

/-- V-B1, V-B6, V-B7, V-B8. -/
theorem test_windows :
    windows true 500 1500 = { shortInf := 7, shortSup := 62, longInf := 63, longSup := 129 } ∧
    windows true 1000 1000 = { shortInf := 15, shortSup := 93, longInf := 15, longSup := 93 } ∧
    windows true 1000 1050 = { shortInf := 15, shortSup := 64, longInf := 65, longSup := 98 } ∧
    windows false 500 1500 = { shortInf := 125, shortSup := 1000, longInf := 1001, longSup := 2250 } := by decide

/-- The inputs of V-B13. -/
def vb13 : TimingParams :=
  { family := .tribit, initialSequenceMin := 0, prefixLow := 0, prefixHigh := 0, firstLowIgnore := 0, lowShort := 500,
    lowLong := 1500, highShort := 0, highLong := 0, lastLowOverride := 0, separatorMin := 6000, bitCount := 8 }

/-- A template with the table of P1 and `PAYLOAD_ROW = 2`. -/
def tmpl : Template :=
  { firstRow := 0x0000000000010000, moreRows := p1.tail, prefixRow := 3, payloadRow := 2, normalRow := 0, specialRow := 13 }

/-- V-B9 to V-B13: the vector `PV1`; V-B5 for Manchester. -/
theorem test_build :
    build true tmpl vb13 = .ok (p1, pv1, 8) ∧
    separator true { vb13 with separatorMin := 1000 } = 130 ∧
    lowWindows true { vb13 with family := .manchester, lowShort := 1000, lowLong := 0 } =
      { shortInf := 15, shortSup := 93, longInf := 94, longSup := 135 } ∧
    highWindows true { vb13 with family := .manchester, lowShort := 1000, lowLong := 0 } =
      { shortInf := 15, shortSup := 93, longInf := 94, longSup := 135 } := by decide

/-- The item number of a build's configuration defect. -/
def defectItem (t : TimingParams) : Option Nat :=
  match build true tmpl t with
  | .error n => some n
  | .ok _ => none

/-- V-B14 to V-B19. -/
theorem test_build_defects :
    [{ vb13 with family := .manchester, lowShort := 1000, lowLong := 0, prefixLow := 300, prefixHigh := 300 },
     { vb13 with lowLong := 0 }, { vb13 with lowShort := 0, lowLong := 0 }, { vb13 with bitCount := 0 },
     { vb13 with family := .manchester, lowShort := 1000 }, { vb13 with prefixLow := 300 }].map defectItem =
      [some 1, some 2, some 3, some 5, some 4, some 2] := by decide

/-- R175 item 2 before item 4 where R163 does not accept the Manchester widths (R349), and accepted derived widths. -/
theorem test_build_manchester_widths :
    [{ vb13 with family := .manchester, lowShort := 0, lowLong := 2000 },
     { vb13 with family := .manchester, lowShort := 1000, lowLong := 0, highShort := 500 },
     { vb13 with family := .manchester, lowShort := 0, lowLong := 0 },
     { vb13 with family := .manchester, lowShort := 1000, lowLong := 0, highShort := 1000 },
     { vb13 with family := .manchester, lowShort := 1000, lowLong := 0, highLong := 2000 }].map defectItem =
      [some 2, some 2, some 4, none, none] := by decide

/-- V-A1, V-A5, V-A13. -/
theorem test_append :
    ([true, false, true, true].foldlM (fun a b => accAddBit b a) (dec 0 0 0 false)).map (fun d => (d.v, d.cnt)) =
      .ok (0b1011, 4) ∧
    accAddBit true (dec 0 0xA5 8 false) = .error { code := .bitOverflow, val := 8 } ∧
    accAddBit false { dec 0 1 1 false with nbits := 1 } = .error { code := .bitOverflow, val := 1 } := by decide

/-- V-A2, V-A6, V-A7. -/
theorem test_readout :
    (0b1011 : Nat).testBit 2 = false ∧ byteCountOf 12 = 2 ∧ byteAt 0x1A5 1 = 0x01 ∧ byteAt 0x1A5 0 = 0xA5 ∧
    byteCountOf 0 = 0 ∧ toHexString { cnt := 12, v := 0x1A5 } = some "01 A5" ∧ toHexString { cnt := 0, v := 0 } = none := by
  decide

/-- V-A8 to V-A11. -/
theorem test_compare :
    compareFrames { cnt := 8, v := 0xA5 } { cnt := 8, v := 0xA5 } = .eq ∧
    compareFrames { cnt := 8, v := 0xA5 } { cnt := 8, v := 0x5A } = .gt ∧
    compareFrames { cnt := 3, v := 7 } { cnt := 4, v := 0 } = .lt ∧
    compareFrames { cnt := 0, v := 0 } { cnt := 0, v := 0 } = .eq := by decide

/-! ## The host (95_test_vectors.md §7) -/

/-- The callbacks of V-H1 to V-H6. -/
def cbs : List Callback :=
  [{ fn := 1, filter := none, interval := 0, last := 0, fired := false },
   { fn := 2, filter := some { cnt := 8, v := 0xA5 }, interval := 1000, last := 0, fired := false },
   { fn := 3, filter := some { cnt := 8, v := 0x5A }, interval := 0, last := 0, fired := false }]

/-- An idle block with one ready decoder and an operation to run. -/
def hostBlock (cs : List Callback) (op : HostOp) : State :=
  withInputs .host [op] (block [{ dec 13 0xA5 8 true with callbacks := cs }] (ev 0 false) .idle true)

/-- The callbacks a dispatch invokes and the records after it. -/
def dispatchView (now : Stamp) (cs : List Callback) : Option (List Nat × List (Stamp × Bool)) :=
  (after (step (hostBlock cs (.dispatchReadyFrames now)))).map fun t =>
    (match t.host.reply with
      | .dispatched l => l.map (·.fn)
      | _ => [],
     t.decs.flatMap fun d => d.callbacks.map fun c => (c.last, c.fired))

/-- V-H2 to V-H5. -/
theorem test_dispatch :
    dispatchView 5000 cbs = some ([1, 2], [(5000, true), (5000, true), (0, false)]) ∧
    dispatchView 5500 (cbs.map fun c => { c with last := 5000, fired := true }) =
      some ([1], [(5500, true), (5000, true), (5000, true)]) ∧
    dispatchView 6000 (cbs.map fun c => { c with last := 5000, fired := true }) =
      some ([1, 2], [(6000, true), (6000, true), (5000, true)]) ∧
    dispatchView 0x300 ((cbs.map fun c => { c with last := 0xFFFFFF00, fired := true }).drop 1) =
      some ([2], [(0x300, true), (0xFFFFFF00, true)]) := by decide

/-- V-H9, V-H10. -/
theorem test_reset_decoder_and_register :
    (after (step (hostBlock cbs (.resetDecoder 0)))).map (fun t => t.decs) =
      some [{ dec 0 0 0 false with callbacks := cbs }] ∧
    (after (step (withInputs .host [.registerTable [] [0] 8 []] State.reset))).map (fun t => (t.fault, t.decs)) =
      some ({ fatal := true, code := .config, dec := 0, row := 0, val := 8 }, []) ∧
    refusal (step (withInputs .host [.resetDecoder 1] (block [dec 0 0 0 false] (ev 0 true) .idle true))) =
      some .noSuchHandle := by decide

/-- V-X2, V-X5. -/
theorem test_halt :
    (after (step (withInputs (.edge 100 true) [] (raiseFatal .config 0 0 8 State.reset)))).map (fun t => (t.q.w, t.prod)) =
      some (0, { prevTs := 0 }) ∧
    (after (step (withInputs .blockReset [] (raiseFatal .config 0 0 8 State.reset)))).map (fun t => t.fault) =
      some FaultRegs.clear := by decide

/-- V-X4 and the register view (10_state.md R40): the code by its number, `cnt` also while the decoder is not ready. -/
theorem test_register_view :
    (after (step (withInputs .readFault [] (raiseFatal .bitOverflow 0 1 2 State.reset)))).map (fun t => t.host.reply) =
      some (.faultRecord true 4 0 1 2) ∧
    [FaultCode.none, .badOpcode, .badOperand, .badSuccessor, .bitOverflow, .bitIndex, .config].map
      (fun c => c.number.toNat) = [0, 1, 2, 3, 4, 5, 6] ∧
    (after (step (withInputs .host [.readDstat 0] (block [dec 8 1 1 false] (ev 0 true) .idle true)))).map
      (fun t => t.host.reply) = some (.dstatReg 8 1 false) := by decide

/-- 30_encoding.md R110, R116 to R119, 00_scope.md R3, 42_bit_accumulator.md R191. -/
theorem test_text_forms :
    lineText 13 (.term (.direct 13)) = "13: TERM 13" ∧ slotWord BuildCfg.default (ev 166 true) = 0x1A6 ∧
    accBytes { dec 0 0x1A5 12 false with nbits := 12 } = [0xA5, 0x01] ∧
    instrText (.chkd (.par 1) (.pind 16) (.direct 2) (.indirect 3)) = "CHKD p[1], p[p[16]], 2, @p[3]" ∧
    rowHex 0x2600010010020300 = "2600010010020300" ∧ configString State.reset = "RF433CORE-C1-Q16-D0" := by decide

/-! ## The invariant of the blocks used here -/

theorem dec_inv {st : Index8} {v : Nat} {c : Index8} {r : Bool} (h1 : st.toNat < 14) (h2 : c.toNat ≤ 8)
    (h3 : v < 2 ^ c.toNat) : (dec st v c r).Inv :=
  ⟨(by decide : 1 ≤ p1.length), (by decide : p1.length ≤ 256), (by decide : 1 ≤ pv1.length), (by decide : pv1.length ≤ 256),
    (by decide : 1 ≤ (8 : Index8).toNat), h1, h2, h3⟩

theorem block_inv {d : Decoder} {e : Event} {ph : Phase} {first : Bool} (hd : d.Inv) (he : e.d.toNat ≤ 255)
    (hr : first = false → d.ready = false) : (block [d] e ph first).Inv where
  qcap := (by decide : 1 ≤ (2 : BitVec 4).toNat)
  queue := ⟨rfl, (by decide : 0 < 4), (by decide : 1 < 4)⟩
  slotsFit := by
    intro x hx
    have hx' : x ∈ [e, ⟨0, false⟩, ⟨0, false⟩, ⟨0, false⟩] := hx
    simp only [List.mem_cons, List.not_mem_nil, or_false, or_self] at hx'
    rcases hx' with rfl | rfl
    · exact he
    · exact Nat.zero_le _
  ndec := (by decide : 1 ≤ 255)
  decs := by
    intro x hx
    rw [List.mem_singleton.mp hx]
    exact hd
  guard := by cases ph <;> simp [block]
  held := fun _ => ⟨Nat.zero_ne_one, rfl⟩
  heldPhase := by cases ph <;> simp [block]
  holdFits := he
  cur := fun _ => Nat.zero_le _
  midBurst := fun _ hf => ⟨d, rfl, hr hf⟩
  noFault := fun _ => rfl
  isFault := by intro h; cases h

theorem withInputs_inv {s : State} (t : Turn) (ops : List HostOp) (h : s.Inv) : (withInputs t ops s).Inv :=
  ⟨h.1, h.2, h.3, h.4, h.5, h.6, h.7, h.8, h.9, h.10, h.11, h.12, h.13⟩

/-- The block of the feed witnesses: decoder 0 at row 8 (`ADD0`), one bit recorded, in the middle of a burst. -/
def feeding : State := block [dec 8 1 1 false] (ev 31 true) .feed false

theorem feeding_inv : feeding.Inv :=
  block_inv (dec_inv (by decide) (by decide) (by decide)) (by decide) (fun _ => rfl)

/-! ## Witnesses -/

theorem witness_JmpAlwaysTaken :
    (block [dec 0 0 0 false] (ev 0 true) .feed true).decs[0]? = some (dec 0 0 0 false) ∧
    SuccIs (dec 0 0 0 false) (.direct 13) 13 ∧ SuccIs (dec 0 0 0 false) (.indirect 15) 2 :=
  ⟨rfl, ⟨rfl, by decide⟩, 2, rfl, by decide, rfl⟩

/-- Both a head row and a later row. -/
theorem witness_StepRunsDecodedRow :
    nextTurn feeding = .consumer ∧ feeding.fault.fatal = false ∧ feeding.cons.phase = .feed ∧
    feeding.decs[feeding.cons.cur]? = some (dec 8 1 1 false) ∧ feeding.cons.first = false ∧
    (dec 8 1 1 false).table[(dec 8 1 1 false).status.toNat]? = some 0x4F000000000C0000 ∧
    rowOp 0x4F000000000C0000 ≠ 0 ∧ decode 0x4F000000000C0000 = .ok (.add0 (.direct 12)) ∧
    (after (step feeding)).bind view = good 12 2 2 false := by decide

/-- `OP = 7` and `OP = 15` at a head row, `RES = 1` with `OP = 4` at a later row. -/
theorem witness_IllegalRowRaisesBadOpcode :
    nextTurn feeding = .consumer ∧ feeding.fault.fatal = false ∧ feeding.cons.phase = .feed ∧
    7 ≤ (rowOp 0x7000000000000000).toNat ∧ 7 ≤ (rowOp 0xF000000000000000).toNat ∧
    rowRes 0x4000000000000001 ≠ 0 ∧ rowOp 0x4000000000000001 ≠ 0 ∧
    (after (step (block [decRow 0x4000000000000001 (dec 8 1 1 false)] (ev 31 true) .feed false))).bind view =
      bad 8 1 1 .badOpcode 4 ∧
    feedRow 0xF000000000000000 (dec 0 0 0 false) (ev 0 true) = bad 0 0 0 .badOpcode 15 := by decide

theorem witness_LaterWaitEndsBurst :
    let s := block [dec 3 1 1 false] (ev 31 true) .feed false
    nextTurn s = .consumer ∧ s.fault.fatal = false ∧ s.cons.phase = .feed ∧ s.decs[s.cons.cur]? = some (dec 3 1 1 false) ∧
    (dec 3 1 1 false).table[3]? = some 0x0000010001040000 ∧ s.cons.first = false ∧ rowOp 0x0000010001040000 = 0 := by
  decide

theorem witness_FrozenDecoderSkipsEvent :
    let s := block [dec 13 0xA5 8 true] (ev 31 true) .feed true
    let u := block [] (ev 31 true) .feed true
    nextTurn s = .consumer ∧ s.fault.fatal = false ∧ s.cons.phase = .feed ∧
    s.decs[s.cons.cur]? = some (dec 13 0xA5 8 true) ∧ s.cons.first = true ∧ (dec 13 0xA5 8 true).ready = true ∧
    nextTurn u = .consumer ∧ u.fault.fatal = false ∧ u.cons.phase = .feed ∧ u.cons.cur = u.decs.length := by decide

theorem witness_StartIsGuarded :
    let s := withInputs .consumer [] (queueAt 0 true 3 0)
    let u := withInputs .consumer [] (queueAt 0 true 3 3)
    nextTurn s = .consumer ∧ s.fault.fatal = false ∧ s.cons.phase = .idle ∧ s.cons.busy = false ∧ s.q.r ≠ s.q.w ∧
    nextTurn u = .consumer ∧ u.fault.fatal = false ∧ u.cons.phase = .idle ∧ u.q.r = u.q.w := by decide

theorem witness_FetchTakesOldest :
    let s := block [] (ev 31 true) .fetch true
    let u := { withInputs .consumer [] (queueAt 0 true 3 3) with cons := { Consumer.idle with busy := true, phase := .fetch } }
    nextTurn s = .consumer ∧ s.fault.fatal = false ∧ s.cons.phase = .fetch ∧ s.q.r ≠ s.q.w ∧
    s.q.slots[s.q.r]? = some (ev 31 true) ∧
    nextTurn u = .consumer ∧ u.fault.fatal = false ∧ u.cons.phase = .fetch ∧ u.q.r = u.q.w := by decide

theorem witness_RetireFreesSlot :
    let s := block [] (ev 31 true) .retire true
    nextTurn s = .consumer ∧ s.fault.fatal = false ∧ s.cons.phase = .retire ∧ s.cons.holdValid = true := by decide

/-- Operands at the ends of their ranges: the last parameter and the first missing one, every sentinel, the last row and
the first missing one. They meet the premises of WaitRow, ChkdRow, ChkbRow, TermRow, RstbRow, Add0Row and Add1Row. -/
theorem witness_Operands :
    let d := { dec 0 0 0 false with params := pv1.set 16 18 |>.set 17 14 |>.set 18 19 }
    OperandIs d (.lit 0xFFFF) 0xFFFF ∧ OperandIs d (.par 18) 19 ∧ OperandIs d (.pind 16) 19 ∧ OperandIs d (.sen .zero) 0 ∧
    OperandIs d (.sen .one) 1 ∧ OperandIs d (.sen .max) 0xFFFF ∧ OperandIs d (.sen .nbm1) 7 ∧
    OperandBad d (.par 19) 19 ∧ OperandBad d (.pind 19) 19 ∧ OperandBad d (.pind 18) 19 ∧ OperandBad d (.sen .dc) 0 ∧
    OperandBad d (.sen (.reserved 5)) 5 :=
  ⟨rfl, rfl, ⟨18, rfl, rfl⟩, rfl, rfl, rfl, rfl, ⟨by decide, rfl⟩, .inl ⟨by decide, rfl⟩,
    .inr ⟨19, rfl, by decide, rfl⟩, rfl, rfl⟩

theorem witness_Successors :
    let d := { dec 0 0 0 false with params := pv1.set 16 13 |>.set 17 14 |>.set 18 0xFFFF }
    SuccIs d (.direct 13) 13 ∧ SuccIs d (.indirect 16) 13 ∧ SuccBad d (.direct 14) .badSuccessor 14 ∧
    SuccBad d (.indirect 17) .badSuccessor 14 ∧ SuccBad d (.indirect 18) .badSuccessor 0xFFFF ∧
    SuccBad d (.indirect 19) .badOperand 19 :=
  ⟨⟨rfl, by decide⟩, ⟨13, rfl, by decide, rfl⟩, ⟨by decide, rfl, rfl⟩, .inr ⟨14, rfl, by decide, rfl, rfl⟩,
    .inr ⟨0xFFFF, rfl, by decide, rfl, rfl⟩, .inl ⟨by decide, rfl, rfl⟩⟩

/-- A decoder is being fed and each row takes each branch: level 1 in [1, 1] and not in [1, 0]; the code 62 in
[7, 62] and not in [63, 129]; the count 7 in [0, 7] and 8 not. -/
theorem witness_CheckRows :
    let s := block [dec 4 0 7 false] (ev 62 true) .feed true
    let u := block [dec 4 0 8 false] (ev 62 true) .feed true
    s.decs[s.cons.cur]? = some (dec 4 0 7 false) ∧
    (after (exec (.wait (.lit 1) (.lit 1) (.direct 4) (.direct 0)) s)).bind view = good 4 0 7 false ∧
    (after (exec (.wait (.lit 1) (.lit 0) (.direct 4) (.direct 0)) s)).bind view = good 0 0 7 false ∧
    (after (exec (.chkd (.par 1) (.par 2) (.direct 5) (.direct 6)) s)).bind view = good 5 0 7 false ∧
    (after (exec (.chkd (.par 3) (.par 4) (.direct 5) (.direct 6)) s)).bind view = good 6 0 7 false ∧
    (after (exec (.chkb (.sen .zero) (.sen .nbm1) (.direct 3) (.direct 13)) s)).bind view = good 3 0 7 false ∧
    (after (exec (.chkb (.sen .zero) (.sen .nbm1) (.direct 3) (.direct 13)) u)).bind view = good 13 0 8 false := by decide

/-- A decoder is being fed: TERM, RSTB and both appends complete, the appends at `cnt = NBITS - 1` too, and overflow at
`cnt = NBITS`. -/
theorem witness_AccumulatorRows :
    let s := block [dec 4 0x52 7 false] (ev 62 true) .feed true
    let u := block [dec 4 0xA5 8 false] (ev 62 true) .feed true
    s.decs[s.cons.cur]? = some (dec 4 0x52 7 false) ∧ (dec 4 0x52 7 false).cnt ≠ (dec 4 0x52 7 false).nbits ∧
    u.decs[u.cons.cur]? = some (dec 4 0xA5 8 false) ∧ (dec 4 0xA5 8 false).cnt = (dec 4 0xA5 8 false).nbits ∧
    (after (exec (.term (.direct 13)) s)).bind view = good 13 0x52 7 true ∧
    (after (exec (.rstb (.indirect 15)) s)).bind view = good 2 0 0 false ∧
    (after (exec (.add0 (.direct 13)) s)).bind view = good 13 0xA4 8 false ∧
    (after (exec (.add1 (.direct 13)) s)).bind view = good 13 0xA5 8 false ∧
    (after (exec (.add1 (.direct 14)) u)).bind view = bad 4 0xA5 8 .bitOverflow 8 := by decide

/-- The premises of the three frame statements, on a step that completes and on one that records a defect. -/
theorem witness_Frames :
    let s := block [dec 4 0x52 7 false, dec 0 0 0 false] (ev 62 true) .feed true
    (after (exec (.chkd (.par 1) (.par 2) (.direct 5) (.direct 6)) s)).map (fun t => (t.decs[1]?, t.fault.fatal)) =
      some (some (dec 0 0 0 false), false) ∧
    (after (exec (.chkb (.par 19) (.par 2) (.direct 5) (.direct 6)) s)).map (fun t => t.fault.code) = some .badOperand ∧
    (after (exec (.wait (.lit 0) (.lit 1) (.direct 5) (.direct 6)) s)).map (fun t => t.decs[1]?) =
      some (some (dec 0 0 0 false)) ∧
    (after (exec (.add1 (.direct 13)) s)).map (fun t => t.decs[1]?) = some (some (dec 0 0 0 false)) ∧
    (after (exec (.add0 (.direct 14)) s)).map (fun t => t.fault.code) = some .badSuccessor ∧
    (after (exec (.rstb (.direct 13)) s)).map (fun t => t.decs[1]?) = some (some (dec 0 0 0 false)) ∧
    (after (exec (.term (.direct 13)) s)).map (fun t => t.decs[1]?) = some (some (dec 0 0 0 false)) := by decide

/-- The decoder of program P3 (95_test_vectors.md §9) at its append row, full. -/
def p3 : Decoder :=
  { table := [0x0F00010002010000, 0x5F00000000010000], params := [0], nbits := 2, status := 1, v := 3, cnt := 2,
    ready := false, callbacks := [] }

theorem p3_inv : p3.Inv := ⟨by decide, by decide, by decide, by decide, by decide, by decide, by decide, by decide⟩

theorem p3_legal : TableLegal p3 := by
  intro w hw
  have hw' : w ∈ [(0x0F00010002010000 : Row), 0x5F00000000010000] := hw
  simp only [List.mem_cons, List.not_mem_nil, or_false] at hw'
  rcases hw' with rfl | rfl
  · exact ⟨.wait (.sen .zero) (.sen .one) (.direct 1) (.direct 0), by decide, ⟨0, rfl⟩, ⟨1, rfl⟩, ⟨1, rfl, by decide⟩,
      ⟨0, rfl, by decide⟩⟩
  · exact ⟨.add1 (.direct 1), by decide, 1, rfl, by decide⟩

/-- Well-formed tables, and a step that raises `BIT_OVERFLOW` (program P3). -/
theorem witness_LegalTablesRaiseOnlyOverflow :
    (block [p3] (ev 5 false) .feed false).Inv ∧ (∀ d ∈ (block [p3] (ev 5 false) .feed false).decs, TableLegal d) ∧
    nextTurn (block [p3] (ev 5 false) .feed false) = .consumer ∧
    (block [p3] (ev 5 false) .feed false).fault.fatal = false ∧
    (after (step (block [p3] (ev 5 false) .feed false))).bind view = bad 1 3 2 .bitOverflow 2 :=
  ⟨block_inv p3_inv (by decide) (fun _ => rfl), fun d hd => by rw [List.mem_singleton.mp hd]; exact p3_legal, by decide,
    by decide, by decide⟩

/-- The same step: a fault raised from a state without one. -/
theorem witness_FaultCommitsNothingElse :
    (block [p3] (ev 5 false) .feed false).fault.fatal = false ∧
    (after (step (block [p3] (ev 5 false) .feed false))).map (fun t => t.fault.fatal) = some true := by decide

theorem witness_PrivateCopyRunsAlike :
    feeding.decs[feeding.cons.cur]? = some (dec 8 1 1 false) ∧
    InstrLegal (dec 8 1 1 false) (.chkd (.par 9) (.pind 14) (.indirect 15) (.direct 13)) ∧
    inlineInstr (dec 8 1 1 false) (.chkd (.par 9) (.pind 14) (.indirect 15) (.direct 13)) =
      .chkd (.lit 158) (.lit 129) (.direct 2) (.direct 13) :=
  ⟨rfl, ⟨⟨158, rfl⟩, ⟨129, 8, rfl, rfl⟩, ⟨2, 2, rfl, by decide, rfl⟩, ⟨13, rfl, by decide⟩⟩, by decide⟩

/-- `NBITS = 1`, filled by one append. -/
theorem witness_AppendsBuildValue :
    let d := { dec 0 0 0 false with nbits := 1 }
    d.v = 0 ∧ d.cnt = 0 ∧ [true].length ≤ d.nbits.toNat ∧ [true].length = d.nbits.toNat ∧ [true][0]? = some true := by
  decide

/-- The last bit and the last byte of a frame of 8 bits. -/
theorem witness_ReadoutOfReadyFrame :
    let s := block [dec 13 0xA5 8 true] (ev 0 true) .idle true
    s.decs[0]? = some (dec 13 0xA5 8 true) ∧ (dec 13 0xA5 8 true).ready = true ∧
    (7 : Entry).toNat < (dec 13 0xA5 8 true).cnt.toNat ∧ (0 : Entry).toNat < ((dec 13 0xA5 8 true).cnt.toNat + 7) / 8 ∧
    (after (hostAct (.nthBit 0 7) s)).map (fun t => t.host.reply) = some (.bit true) ∧
    (after (hostAct (.nthByte 0 0) s)).map (fun t => t.host.reply) = some (.byte 0xA5) := by decide

/-- The first index out of range, of bits and of bytes (V-A3). -/
theorem witness_ReadoutOutOfRange :
    let s := block [dec 13 0b1011 4 true] (ev 0 true) .idle true
    s.decs[0]? = some (dec 13 0b1011 4 true) ∧ (dec 13 0b1011 4 true).cnt.toNat ≤ (4 : Entry).toNat ∧
    ((dec 13 0b1011 4 true).cnt.toNat + 7) / 8 ≤ (1 : Entry).toNat ∧
    (after (hostAct (.nthBit 0 4) s)).map (fun t => t.fault) =
      some { fatal := true, code := .bitIndex, dec := 0, row := 0, val := 4 } := by decide

theorem witness_ReadoutOfUnreadyFrame :
    let s := block [dec 12 0b1011 4 false] (ev 0 true) .idle true
    s.decs[0]? = some (dec 12 0b1011 4 false) ∧ (dec 12 0b1011 4 false).ready = false ∧
    (3 : Entry).toNat < (dec 12 0b1011 4 false).cnt.toNat ∧
    (0 : Entry).toNat < ((dec 12 0b1011 4 false).cnt.toNat + 7) / 8 := by decide

/-- A ready frame of 12 bits (V-A6) and an empty one. -/
theorem witness_HexDumpOfReadyFrame :
    let d := { dec 13 0x1A5 12 true with nbits := 12 }
    (block [d] (ev 0 true) .idle true).decs[0]? = some d ∧ d.ready = true ∧ 0 < d.cnt.toNat ∧
    (dec 0 0 0 true).ready = true ∧ (dec 0 0 0 true).cnt.toNat = 0 ∧
    (after (hostAct (.toHexString 0) (block [d] (ev 0 true) .idle true))).map (fun t => t.host.reply) =
      some (.hex (some "01 A5")) := by decide

/-- The largest value of 8 bits and the empty frame. -/
theorem witness_CompareIsLexicographic :
    (0xFF : Nat) < 2 ^ (8 : Index8).toNat ∧ (0 : Nat) < 2 ^ (0 : Index8).toNat ∧
    compareFrames { cnt := 8, v := 0x7F } { cnt := 8, v := 0x80 } = .lt := by decide

/-- The ends of the bands. -/
theorem witness_CompressBands :
    (2047 : Entry).toNat < 2048 ∧ 2048 ≤ (2048 : Entry).toNat ∧ (17407 : Entry).toNat < 17408 ∧
    17408 ≤ (17408 : Entry).toNat ∧ (46079 : Entry).toNat < 46080 ∧ 46080 ≤ (46080 : Entry).toNat ∧
    (17407 : Entry) ≤ (17408 : Entry) ∧ (46079 : Entry) ≤ (0xFFFF : Entry) := by decide

/-- The ends of the bands of `uncompact`. -/
theorem witness_CompressRoundTrip :
    (127 : Byte).toNat < 128 ∧ 128 ≤ (128 : Byte).toNat ∧ (247 : Byte).toNat < 248 ∧ 248 ≤ (248 : Byte).toNat ∧
    (254 : Byte).toNat < 255 ∧ (255 : Byte).toNat = 255 ∧
    [127, 128, 247, 248, 254, 255].map (fun c => (uncompact8 c).toNat) = [2032, 2048, 17280, 17408, 41984, 46080] := by
  decide

/-- Widths of each kind of level: distinct, equal, Manchester, mirrored, given (one of the two high widths 0 as well). -/
theorem witness_WindowsOrdered :
    (1000 : Nat) < 1050 ∧ (windows true 1000 1050).shortSup < (windows true 1000 1050).longInf ∧ (1000 : Nat) = 1000 ∧
    ({ vb13 with family := .manchester }).family = .manchester ∧
    vb13.family ≠ .manchester ∧ vb13.highShort = 0 ∧ vb13.highLong = 0 ∧
    ({ vb13 with highLong := 9 }).family ≠ .manchester ∧ ({ vb13 with highLong := 9 }).highLong ≠ 0 := by decide

/-- Builds that succeed, of each family and both modes: the premise of SeparatorExceedsLongBands and BuilderVector; `VARIANT` is
`SPECIAL_ROW` for equal high widths and for unset ones of equal low widths (R172). -/
theorem witness_Builds :
    build true tmpl vb13 = .ok (p1, pv1, 8) ∧ (vb13.prefixLow = 0 ∧ vb13.prefixHigh = 0 ∧ vb13.firstLowIgnore = 0) ∧
    (build false tmpl { vb13 with family := .tribitInv }).toOption.map (fun x => x.2.1[16]?) = some (some 0) ∧
    (build true tmpl { vb13 with family := .tribitInv, highShort := 700, highLong := 700 }).toOption.map
      (fun x => (x.2.1[16]?, x.2.1[4]?, x.2.1[8]?)) = some (some 13, some 129, some 65) ∧
    (build true tmpl { vb13 with family := .tribitInv, lowShort := 700, lowLong := 700 }).toOption.map
      (fun x => x.2.1[16]?) = some (some 13) ∧
    (build true tmpl { vb13 with prefixLow := 300, prefixHigh := 600 }).toOption.map (fun x => x.2.1[15]?) =
      some (some 3) ∧
    (build true tmpl { vb13 with family := .manchester, lowShort := 1000, lowLong := 2000, bitCount := 255 }).toOption.map
      (fun x => x.2.2) = some 255 := by decide

/-- A template whose rows go to themselves and to the dispatch slots. -/
def tmplBounded : Template :=
  { firstRow := 0x0000010001010000, moreRows := [0x27000900030F10C0], prefixRow := 1, payloadRow := 0, normalRow := 1,
    specialRow := 0 }

/-- The premise of R177 holds of a template, and a build from it succeeds. -/
theorem witness_BuilderVector_bounded :
    TemplateBounded tmplBounded ∧ (build true tmplBounded vb13).toOption.map (fun x => (x.1.length, x.2.1[15]?)) =
      some (2, some 0) := by
  refine ⟨?_, by decide⟩
  intro w hw i hi f hf
  have hw' : w ∈ [(0x0000010001010000 : Row), 0x27000900030F10C0] := hw
  simp only [List.mem_cons, List.not_mem_nil, or_false] at hw'
  rcases hw' with rfl | rfl
  · cases (show decode 0x0000010001010000 = .ok (.wait (.lit 1) (.lit 1) (.direct 1) (.direct 0)) by
      decide).symm.trans hi
    have hf' : f ∈ [Succ.direct 1, .direct 0] := hf
    simp only [List.mem_cons, List.not_mem_nil, or_false] at hf'
    rcases hf' with rfl | rfl <;> decide
  · cases (show decode 0x27000900030F10C0 = .ok (.chkd (.par 9) (.sen .max) (.indirect 15) (.indirect 16)) by
      decide).symm.trans hi
    have hf' : f ∈ [Succ.indirect 15, .indirect 16] := hf
    simp only [List.mem_cons, List.not_mem_nil, or_false] at hf'
    rcases hf' with rfl | rfl <;> decide

/-- Every item of R175 is the first one for some inputs, item 6 by a short band and by a long one, item 7 by a template. -/
theorem witness_BuilderRejectsDefects :
    [{ vb13 with family := .manchester, prefixLow := 300 }, { vb13 with highLong := 9 },
     { vb13 with lowShort := 0, lowLong := 0 }, { vb13 with family := .manchester },
     { vb13 with bitCount := 256 }, { vb13 with lowShort := 65535, lowLong := 26700 },
     { vb13 with lowLong := 40000 }].map defectItem =
      [some 1, some 2, some 3, some 4, some 5, some 6, some 6] ∧
    (windows true 65535 26700).shortSup = dmax true ∧ (windows true 65535 26700).longSup < dmax true ∧
    (match build true { tmpl with payloadRow := 14 } vb13 with | .error n => n | .ok _ => 0) = 7 := by decide

/-- Defects of a timing set and every range defect of a table, at the first value out of range. -/
theorem witness_ConfigDefectRegistersNothing :
    State.reset.aux.started = false ∧
    build true (Config.template .tribit) { vb13 with bitCount := 256 } = .error 5 ∧
    ([] : List Row).length = 0 ∧ 256 < (List.replicate 257 (0 : Row)).length ∧ ([] : List Entry).length = 0 ∧
    256 < (List.replicate 257 (0 : Entry)).length ∧ 255 < 256 ∧
    255 ≤ ({ State.reset with decs := List.replicate 255 p3 }).decs.length :=
  ⟨rfl, by decide, rfl, by rw [List.length_replicate]; decide, rfl, by rw [List.length_replicate]; decide, by decide,
    (List.length_replicate (n := 255) (a := p3)).ge⟩

/-- Registrations at both ends of the ranges, and a build. -/
theorem witness_RegistrationAppends :
    State.reset.aux.started = false ∧ ({ State.reset with decs := List.replicate 254 p3 }).decs.length < 255 ∧
    1 ≤ [(0 : Row)].length ∧ (List.replicate 256 (0 : Row)).length ≤ 256 ∧ 1 ≤ [(0 : Entry)].length ∧
    (List.replicate 256 (0 : Entry)).length ≤ 256 ∧ 1 ≤ 255 ∧
    build State.reset.cfg.compress tmpl vb13 = .ok (p1, pv1, 8) ∧
    (after (hostAct (.registerTable p1 pv1 8 []) State.reset)).map (fun t => (t.decs, t.host.reply)) =
      some ([dec 0 0 0 false], .handle 0) ∧
    ({ State.reset with aux := { started := true, freeCtr := 0 } }).aux.started = true :=
  ⟨rfl, Nat.lt_of_le_of_lt (List.length_replicate (n := 254) (a := p3)).le (by decide), by decide,
    (List.length_replicate (n := 256) (a := (0 : Row))).le, by decide, (List.length_replicate (n := 256) (a := (0 : Entry))).le,
    by decide, by decide, by decide, rfl⟩

/-- An edge into a queue that is not full, and the block it needs. -/
theorem witness_PushWritesEvent :
    (withInputs (.edge 100 true) [] feeding).Inv ∧ nextTurn (withInputs (.edge 100 true) [] feeding) = .edge 100 true ∧
    (withInputs (.edge 100 true) [] feeding).fault.fatal = false ∧
    (feeding.q.w + 1) % feeding.cfg.qcap ≠ feeding.q.r ∧
    (after (step (withInputs (.edge 100 true) [] feeding))).map (fun t => (t.q.w, t.q.r, t.cons.holdValid)) =
      some (2, 0, true) :=
  ⟨withInputs_inv _ _ feeding_inv, by decide, by decide, by decide, by decide⟩

/-- The same block with the queue full: the write cursor moved to the last slot. -/
def feedingFull : State := { feeding with q := { feeding.q with w := 3 } }

theorem feedingFull_inv : feedingFull.Inv :=
  ⟨feeding_inv.1, ⟨rfl, by decide, by decide⟩, feeding_inv.3, feeding_inv.4, feeding_inv.5, feeding_inv.6,
    fun _ => ⟨by decide, rfl⟩, feeding_inv.8, feeding_inv.9, feeding_inv.10, feeding_inv.11, feeding_inv.12, feeding_inv.13⟩

/-- An edge into a full queue drops the held entry. -/
theorem witness_PushWritesEvent_overrun :
    (withInputs (.edge 100 true) [] feedingFull).Inv ∧ feedingFull.fault.fatal = false ∧
    (feedingFull.q.w + 1) % feedingFull.cfg.qcap = feedingFull.q.r ∧
    (after (step (withInputs (.edge 100 true) [] feedingFull))).map (fun t => (t.q.w, t.q.r, t.cons.holdValid)) =
      some (0, 1, false) :=
  ⟨withInputs_inv _ _ feedingFull_inv, by decide, by decide, by decide⟩

/-- A queue of two slots, the smallest; `N` pushes into an empty one (scenario Q4's capacity). -/
theorem witness_Queue :
    2 ≤ 2 ∧ (Queue.empty 2).wf 2 ∧ (Queue.empty 2).r = (Queue.empty 2).w ∧ [ev 1 true, ev 2 true].length = 2 ∧
    queueList 2 ([ev 1 true, ev 2 true].foldl (fun q e => queuePush 2 e q) (Queue.empty 2)) = [ev 2 true] := by decide

/-- Each clause: an edge, a feed, a host operation, `read_fault`, a timeout, a fetch from a queue that holds an event. -/
theorem witness_NoLossNoDuplication :
    (withInputs (.edge 100 true) [] feedingFull).Inv ∧ feeding.Inv ∧
    nextTurn feeding = .consumer ∧ feeding.cons.phase ≠ .fetch ∧ (after (step feeding)).isSome = true ∧
    (block [p3] (ev 5 true) .fetch true).Inv ∧ (block [p3] (ev 5 true) .fetch true).cons.phase = .fetch ∧
    nextTurn (block [p3] (ev 5 true) .fetch true) = .consumer ∧
    unfetched (block [p3] (ev 5 true) .fetch true) = [ev 5 true] ∧
    (after (step (block [p3] (ev 5 true) .fetch true))).map unfetched = some [] ∧
    [withInputs .host [.hasAnyFrameReady] feeding, withInputs .readFault [] feeding, withInputs .timeout [] feeding].map
      (fun s => (nextTurn s, (after (step s)).map unfetched)) =
      [(.host, some []), (.readFault, some []), (.timeout, some [])] :=
  ⟨withInputs_inv _ _ feedingFull_inv, feeding_inv, by decide, by decide, by decide,
    block_inv p3_inv (by decide) (fun _ => rfl), by decide, by decide, by decide, by decide, by decide⟩

/-- A ready and a thawed decoder, and callbacks of both kinds. -/
theorem witness_Dispatch :
    let s := block [{ dec 13 0xA5 8 true with callbacks := cbs }, dec 3 1 1 false] (ev 0 true) .idle true
    s.decs[0]? = some { dec 13 0xA5 8 true with callbacks := cbs } ∧ s.decs[1]? = some (dec 3 1 1 false) ∧
    (dec 3 1 1 false).ready = false ∧ (cbs[1]?).map (·.fn) = some 2 ∧
    (after (hostAct (.dispatchReadyFrames 5000) s)).map (fun t => (t.decs[1]?, anyReady t)) =
      some (some (dec 3 1 1 false), false) := by decide

theorem witness_ResetDecoderClears :
    (hostBlock cbs (.resetDecoder 0)).decs[0]? = some { dec 13 0xA5 8 true with callbacks := cbs } := by decide

/-- A busy block, one that reads the fault record while busy and halted, an idle one, and a wait that must go on. -/
theorem witness_HostRunsOnlyIdle :
    let busy := withInputs .host [.hasAnyFrameReady] feeding
    let idle := hostBlock cbs .blockUntilFrameReady
    let waiting := withInputs .host [.blockUntilFrameReady] (block [dec 3 1 1 false] (ev 0 true) .idle true)
    let reading := withInputs .host [.readFault] (raiseFatal .bitOverflow 0 1 2 feeding)
    nextTurn reading = .host ∧ reading.env.hostOps = [.readFault] ∧ reading.cons.busy = true ∧ reading.fault.fatal = true ∧
    nextTurn busy = .host ∧ busy.env.hostOps = [.hasAnyFrameReady] ∧ busy.cons.busy = true ∧
    nextTurn idle = .host ∧ idle.env.hostOps = [.blockUntilFrameReady] ∧ idle.cons.busy = false ∧ idle.fault.fatal = false ∧
    anyReady idle = true ∧
    nextTurn waiting = .host ∧ waiting.env.hostOps = [.blockUntilFrameReady] ∧ anyReady waiting = false := by decide

/-- No vote of the 12 needed: the wait goes on, or times out. With `CC_VOTES = 0`, the one value for which the votes are
enough whatever `CC_RANGE` is (a constant without a value, log 19), it is clear. -/
theorem witness_ChannelClearWait :
    let s := withInputs .host [.waitChannelClear (some 1000)] State.reset
    let u := withInputs .timeout [.waitChannelClear (some 1000)] State.reset
    let v := withInputs .host [.waitChannelClear none] { State.reset with cfg := { BuildCfg.default with ccVotes := 0 } }
    let w := withInputs .timeout [.waitChannelClear none] State.reset
    s.env.hostOps = [.waitChannelClear (some 1000)] ∧ s.cons.busy = false ∧ s.fault.fatal = false ∧ nextTurn s = .host ∧
    ((s.host.ccTimes.take s.cfg.ccWindow).filter Config.ccInRange).length < s.cfg.ccVotes ∧
    nextTurn u = .timeout ∧ v.cfg.ccVotes ≤ ((v.host.ccTimes.take v.cfg.ccWindow).filter Config.ccInRange).length ∧
    nextTurn v = .host ∧ nextTurn w = .timeout ∧ w.env.hostOps = [.waitChannelClear none] := by decide

theorem witness_ReadFaultAlwaysEnabled :
    nextTurn (withInputs .readFault [] (raiseFatal .bitOverflow 0 1 2 feeding)) = .readFault ∧
    feeding.decs[0]? = some (dec 8 1 1 false) := by decide

theorem witness_HaltStopsAll :
    let s := withInputs (.edge 100 true) [] (raiseFatal .bitOverflow 0 1 2 feeding)
    s.fault.fatal = true ∧ nextTurn s ≠ .blockReset := by decide

theorem witness_BlockResetState :
    nextTurn (withInputs .blockReset [] (raiseFatal .bitOverflow 0 1 2 feeding)) = .blockReset := by decide

/-- The smallest and the largest legal capacity. -/
theorem witness_InvAtReset :
    1 ≤ ({ BuildCfg.default with qcapLog2 := 1 }).qcapLog2.toNat ∧
    1 ≤ ({ BuildCfg.default with qcapLog2 := 15 }).qcapLog2.toNat := by decide

/-- A state with the invariant in the middle of a burst, and a step from it: the premises of StepKeepsInv and NoStopFromInv. -/
theorem witness_StepKeepsInv : feeding.Inv ∧ (after (step feeding)).bind view = good 12 2 2 false :=
  ⟨feeding_inv, by decide⟩

/-- Both directions: a TERM row sets `ready`; a decoder reset and a dispatch clear it. -/
theorem witness_ReadyFlagRule :
    let s := block [dec 13 0xA5 8 false] (ev 0 true) .feed false
    s.Inv ∧ s.decs[0]? = some (dec 13 0xA5 8 false) ∧ (after (step s)).bind view = good 13 0xA5 8 true ∧
    (hostBlock [] (.resetDecoder 0)).Inv ∧ (after (step (hostBlock [] (.resetDecoder 0)))).bind view = good 0 0 0 false ∧
    (after (step (hostBlock [] (.dispatchReadyFrames 9)))).bind view = good 0 0 0 false :=
  ⟨block_inv (dec_inv (by decide) (by decide) (by decide)) (by decide) (fun _ => rfl), rfl, by decide,
    withInputs_inv _ _ (block_inv (dec_inv (by decide) (by decide) (by decide)) (by decide) (fun h => by cases h)),
    by decide, by decide⟩

/-- A ready decoder and a feed, and an edge. -/
theorem witness_ReadyFrameStable :
    let s := block [dec 13 0xA5 8 true] (ev 0 true) .feed true
    s.Inv ∧ s.decs[0]? = some (dec 13 0xA5 8 true) ∧ nextTurn s = .consumer ∧ (after (step s)).isSome = true ∧
    (withInputs (.edge 1 true) [] s).Inv ∧ nextTurn (withInputs (.edge 1 true) [] s) = .edge 1 true :=
  ⟨block_inv (dec_inv (by decide) (by decide) (by decide)) (by decide) (fun h => by cases h), rfl, rfl, by decide,
    withInputs_inv _ _ (block_inv (dec_inv (by decide) (by decide) (by decide)) (by decide) (fun h => by cases h)), rfl⟩

/-- Two blocks that agree on decoder 0 and the held event, and differ elsewhere. -/
theorem witness_RowTouchesOwnDecoder :
    let s := block [dec 8 1 1 false, dec 0 0 0 false] (ev 31 true) .feed true
    let u := block [dec 8 1 1 false] (ev 31 true) .feed false
    s.cons.cur = u.cons.cur ∧ s.cons.hold = u.cons.hold ∧ s.fault = u.fault ∧
    s.decs[s.cons.cur]? = u.decs[u.cons.cur]? ∧ (after (exec (.add0 (.direct 12)) s)).bind view = good 12 2 2 false := by
  decide

theorem witness_ConfigurationImmutable :
    (after (step feeding)).isSome = true ∧ nextTurn feeding ≠ .blockReset ∧ feeding.decs[0]? = some (dec 8 1 1 false) := by
  decide

end Sys2Proof.Tests
end

/-!
PROOFS. The family of 10_state.md: one step as a case list (O55 and O57 are read off it), the ring's push (O42).
-/

namespace Sys2Proof.Machine

open Sys2Proof

/-! ## One step, said once -/

/-- Everything a step that answers a next state did (20_memory.md R83). -/
inductive StepEffect (s : State) : State → Prop where
  /-- a turn whose agent has no enabled action, or that the halt stops (60_exceptions.md R352) -/
  | pass : StepEffect s (popTurn s)
  | edge (ts : Stamp) (lvl : Bool) (hn : nextTurn s = .edge ts lvl) (hf : s.fault.fatal = false) :
      StepEffect s (push ts lvl (popTurn s))
  | consumer (t : State) (hn : nextTurn s = .consumer) (hf : s.fault.fatal = false)
      (h : ConsumerEffect (popTurn s) t) : StepEffect s t
  | host (op : HostOp) (rest : List HostOp) (t : State) (hn : nextTurn s = .host)
      (ho : s.env.hostOps = op :: rest) (he : hostEnabled s op = true)
      (h : HostEffect op (s.setEnv { turns := s.env.turns.tail, hostOps := rest }) t) : StepEffect s t
  | readFault (hn : nextTurn s = .readFault) : StepEffect s ((popTurn s).setReply (fstatReply s.fault))
  | timeout (x : Option Stamp) (rest : List HostOp) (r : Reply) (hn : nextTurn s = .timeout)
      (ho : s.env.hostOps = .waitChannelClear x :: rest) :
      StepEffect s ((s.setEnv { turns := s.env.turns.tail, hostOps := rest }).setReply r)
  | blockReset (hn : nextTurn s = .blockReset) : StepEffect s (blockReset (popTurn s))

theorem step_next {s t : State} (h : step s = .next t) : StepEffect s t := by
  unfold step at h
  generalize hn : nextTurn s = turn at h
  cases turn with
  | edge ts lvl =>
    cases h
    unfold edgeTurn
    split_ifs with hf
    · exact .pass
    · exact .edge ts lvl hn (by simpa using hf)
  | consumer =>
    cases hf : s.fault.fatal with
    | false => exact .consumer t hn hf (consumerTurn_next hf h)
    | true =>
      simp only [runTurn, consumerTurn, popTurn_fault, hf, if_true] at h
      cases h; exact .pass
  | host =>
    obtain rfl | ⟨op, rest, ho, he, ha⟩ := hostTurn_next h
    · exact .pass
    · exact .host op rest t hn ho he (hostAct_next ha)
  | readFault => cases h; exact .readFault hn
  | timeout =>
    obtain rfl | ⟨r, x, rest, ho, rfl⟩ := timeoutTurn_next h
    · exact .pass
    · exact .timeout x rest r hn ho
  | blockReset => cases h; exact .blockReset hn

/-! ## The invariant: decoders -/

/-- Writing one decoder keeps a property that the decoder written has. -/
theorem forall_mem_set {ds : List Decoder} {p : Decoder → Prop} (h : ∀ x ∈ ds, p x) (k : Nat) {d : Decoder}
    (hd : p d) : ∀ x ∈ ds.set k d, p x := fun x hx =>
  (List.mem_or_eq_of_mem_set hx).elim (h x) fun he => he ▸ hd

/-- A reset decoder is at row 0 with an empty accumulator (45_host_interface.md R321). -/
theorem decoderReset_inv {d : Decoder} (h : d.Inv) : (decoderReset d).Inv :=
  { h with status_lt := h.len_pos, cnt_le := Nat.zero_le _, v_lt := Nat.one_pos }

/-- A dispatch leaves a decoder that is not ready alone (45_host_interface.md R317). -/
theorem dispatchDecoder_of_not_ready (now : Stamp) {d : Decoder} (h : d.ready = false) : dispatchDecoder now d = d := by
  simp [dispatchDecoder, h]

/-- After a dispatch no decoder is ready (45_host_interface.md R320). -/
theorem dispatchDecoder_ready (now : Stamp) (d : Decoder) : (dispatchDecoder now d).ready = false := by
  cases h : d.ready with
  | false => rw [dispatchDecoder_of_not_ready now h, h]
  | true => simp [dispatchDecoder, h, decoderReset]

theorem dispatchDecoder_inv (now : Stamp) {d : Decoder} (h : d.Inv) : (dispatchDecoder now d).Inv := by
  unfold dispatchDecoder
  split_ifs
  · exact decoderReset_inv { h with }
  · exact h

/-! ## The invariant: durations and the ring -/

/-- A compressed duration is a code of the active mode (40_compressor.md R149). -/
theorem compress_le_dmax (enabled : Bool) (u : Entry) : (compress enabled u).toNat ≤ dmax enabled := by
  cases enabled with
  | false => exact Nat.le_of_lt_succ u.isLt
  | true =>
    have hlt := (compress8 u).isLt
    simp only [compress, dmax, if_true, BitVec.toNat_setWidth]
    omega

theorem edgeEvent_fits (ts : Stamp) (lvl : Bool) (s : State) : (edgeEvent ts lvl s).fits s.cfg :=
  compress_le_dmax _ _

/-- A push keeps the invariant: it moves `Q.r` only on an overrun, which drops the held entry (44_signal_queue.md R273). -/
theorem push_inv {s : State} (ts : Stamp) (lvl : Bool) (h : s.Inv) : (push ts lvl s).Inv where
  qcap := h.qcap
  queue := queuePush_wf _ h.queue
  slotsFit e he := by
    rw [push, queuePush_slots] at he
    obtain he | rfl := List.mem_or_eq_of_mem_set he
    · exact h.slotsFit e he
    · exact edgeEvent_fits ts lvl s
  ndec := h.ndec
  decs := h.decs
  guard := h.guard
  held hv := by
    simp only [push, Bool.and_eq_true, Bool.not_eq_true'] at hv
    obtain ⟨hv, hfull⟩ := hv
    obtain ⟨hne, hslot⟩ := h.held hv
    simp only [push, queuePush_r, queuePush_w, queuePush_slots, hfull]
    refine ⟨fun hr => ?_, by rw [← hslot]; exact List.getElem?_set_ne (Ne.symm hne)⟩
    exact Bool.false_ne_true (hfull.symm.trans (queueFull_iff.mpr hr.symm))
  heldPhase hv := h.heldPhase (by simp only [push, Bool.and_eq_true] at hv; exact hv.1)
  holdFits := h.holdFits
  cur := h.cur
  midBurst := h.midBurst
  noFault := h.noFault
  isFault := h.isFault

/-! ## The invariant: the consumer -/

/-- A defect keeps the invariant: the fault registers name a fault (60_exceptions.md R350). -/
theorem raiseFatal_inv {s : State} {c : FaultCode} (k row : Index8) (x : Entry) (h : s.Inv) (hc : c ≠ .none) :
    (raiseFatal c k row x s).Inv :=
  { h with noFault := nofun, isFault := fun _ => hc }

/-- Going on to the next decoder keeps the invariant (44_signal_queue.md R278). -/
theorem nextDecoder_inv {s : State} (h : s.Inv) (hlt : s.cons.cur < s.decs.length) : (nextDecoder s).Inv :=
  { h with cur := fun _ => hlt, midBurst := fun _ => nofun }

/-- R37: in every phase but IDLE the guard is set. -/
theorem State.Inv.busy_ne_false {s : State} (h : s.Inv) (hp : s.cons.phase ≠ .idle) : s.cons.busy ≠ false :=
  mt h.guard.mp hp

/-- R35: outside FEED and RETIRE no entry is held. -/
theorem State.Inv.not_held {s : State} (h : s.Inv) (h1 : s.cons.phase ≠ .feed) (h2 : s.cons.phase ≠ .retire) :
    s.cons.holdValid ≠ true := fun hv => (h.heldPhase hv).elim h1 h2

/-- A decoder whose row commits was not frozen: the feed tests it at the head row, the invariant has it of later rows (R227). -/
theorem State.Inv.fed_not_ready {s : State} {d : Decoder} (h : s.Inv) (hp : s.cons.phase = .feed)
    (hd : s.decs[s.cons.cur]? = some d) (hr : s.cons.first = true → d.ready = false) : d.ready = false := by
  cases hfirst : s.cons.first with
  | true => exact hr hfirst
  | false =>
    obtain ⟨d₀, hd₀, hr₀⟩ := h.midBurst hp hfirst
    rw [hd, Option.some.injEq] at hd₀
    exact hd₀ ▸ hr₀

/-- A feed keeps the invariant: TERM is the only row that freezes its decoder, and it ends the burst. -/
theorem feed_inv {s t : State} (h : s.Inv) (hp : s.cons.phase = .feed) (ht : FeedEffect s t) : t.Inv := by
  cases ht with
  | done =>
    have hbusy := h.busy_ne_false (by simp [hp])
    exact { h with
      guard := iff_of_false hbusy nofun, heldPhase := fun _ => .inr rfl, cur := nofun, midBurst := nofun }
  | skip d hd => exact nextDecoder_inv h (List.getElem?_eq_some_iff.mp hd).1
  | defect d c x _ hc =>
    exact raiseFatal_inv _ _ x h (by rcases hc with rfl | rfl | rfl | rfl <;> nofun)
  | row d d' w i hd _ _ ho hr =>
    obtain ⟨hlt, _⟩ := List.getElem?_eq_some_iff.mp hd
    have hkeeps := rowOf_ok ho
    have hdecs := forall_mem_set h.decs s.cons.cur (hkeeps.inv (h.decs d (List.mem_of_getElem? hd)))
    have hlen : (s.decs.set s.cons.cur d').length = s.decs.length := List.length_set
    have hndec := hlen.trans_le h.ndec
    split_ifs with hterm
    · exact { h with
        ndec := hndec, decs := hdecs, cur := fun _ => hlt.trans_eq hlen.symm, midBurst := fun _ => nofun }
    · have hready : d'.ready = false := by
        rw [hkeeps.ready, h.fed_not_ready hp hd hr, Bool.false_or, Bool.eq_false_iff]
        exact hterm
      exact { h with
        ndec := hndec
        decs := hdecs
        cur := fun _ => hlt.le.trans_eq hlen.symm
        midBurst := fun _ _ => ⟨d', List.getElem?_set_self hlt, hready⟩ }

/-- A retire drops the entry only while it is still held (44_signal_queue.md R279). -/
theorem retire_inv {s : State} (h : s.Inv) (hp : s.cons.phase = .retire) : (retireEvent s).Inv := by
  have hguard := iff_of_false (h.busy_ne_false (by simp [hp])) (nofun : Phase.fetch ≠ Phase.idle)
  have hbase : ∀ q : Queue, q.wf s.cfg.qcap → q.slots = s.q.slots →
      ((s.setQ q).setCons { s.cons with holdValid := false, phase := .fetch }).Inv := fun q hq hslots =>
    { h with
      queue := hq
      slotsFit := fun e he => h.slotsFit e (hslots ▸ he)
      guard := hguard, held := nofun, heldPhase := nofun, cur := nofun, midBurst := nofun }
  unfold retireEvent
  split_ifs
  · exact hbase _ (queueDrop_wf h.queue) rfl
  · exact hbase _ h.queue rfl

theorem consumer_inv {s t : State} (h : s.Inv) (ht : ConsumerEffect s t) : t.Inv := by
  cases ht with
  | disabled => exact h
  | start hp =>
    have hv := h.not_held (by simp [hp]) (by simp [hp])
    exact { h with
      guard := iff_of_false nofun nofun, heldPhase := fun hh => (hv hh).elim, cur := nofun, midBurst := nofun }
  | exit hp =>
    have hv := h.not_held (by simp [hp]) (by simp [hp])
    exact { h with
      guard := iff_of_true rfl rfl, heldPhase := fun hh => (hv hh).elim, cur := nofun, midBurst := nofun }
  | fetch e hp hq he =>
    exact { h with
      guard := iff_of_false (h.busy_ne_false (by simp [hp])) nofun
      held := fun _ => ⟨hq, he⟩
      heldPhase := fun _ => .inl rfl
      holdFits := h.slotsFit e (List.mem_of_getElem? he)
      cur := fun _ => Nat.zero_le _
      midBurst := fun _ => nofun }
  | feed _ hp ht => exact feed_inv h hp ht
  | retire hp => exact retire_inv h hp

/-! ## The invariant: the host and block reset -/

/-- A write of the decoder list keeps the invariant when no decoder leaves and none becomes ready. -/
theorem setDecs_inv {s : State} {ds : List Decoder} (h : s.Inv) (hlen : ds.length ≤ 255) (hds : ∀ d ∈ ds, d.Inv)
    (hle : s.decs.length ≤ ds.length)
    (hready : ∀ (k : Nat) (d : Decoder), s.decs[k]? = some d → d.ready = false →
      ∃ d', ds[k]? = some d' ∧ d'.ready = false) : (s.setDecs ds).Inv :=
  { h with
    ndec := hlen
    decs := hds
    cur := fun hp => (h.cur hp).trans hle
    midBurst := fun hp hfirst => by
      obtain ⟨d, hd, hr⟩ := h.midBurst hp hfirst
      exact hready _ d hd hr }

/-- A registration appends a decoder in its ranges (45_host_interface.md R311, R313). -/
theorem appendDecoder_inv {s : State} {d : Decoder} (h : s.Inv) (hn : s.decs.length < 255) (hd : d.Inv) :
    (appendDecoder d s).Inv := by
  have hlen : (s.decs ++ [d]).length = s.decs.length + 1 := by simp
  refine inv_congr (setDecs_inv (ds := s.decs ++ [d]) h (by omega) ?_ (by omega) ?_) rfl rfl rfl rfl rfl
  · intro x hx
    obtain hx | rfl := List.mem_append.mp hx |>.imp_right List.mem_singleton.mp
    · exact h.decs x hx
    · exact hd
  · intro k x hx hr
    exact ⟨x, List.getElem?_append_left (List.getElem?_eq_some_iff.mp hx).1 ▸ hx, hr⟩

theorem dispatchReady_inv {s : State} (now : Stamp) (h : s.Inv) : (dispatchReady now s).Inv := by
  have hlen : (s.decs.map (dispatchDecoder now)).length = s.decs.length := List.length_map _
  refine inv_congr (setDecs_inv (ds := s.decs.map (dispatchDecoder now)) h (hlen.trans_le h.ndec) ?_ hlen.ge ?_)
    rfl rfl rfl rfl rfl
  · exact List.forall_mem_map.mpr fun d hd => dispatchDecoder_inv now (h.decs d hd)
  · intro k d hd _
    exact ⟨dispatchDecoder now d, by rw [List.getElem?_map, hd, Option.map_some], dispatchDecoder_ready now d⟩

theorem resetDecoder_inv {s : State} {k : Nat} {d : Decoder} (h : s.Inv) (hd : s.decs[k]? = some d) :
    (s.setDec k (decoderReset d)).Inv := by
  have hlen : (s.decs.set k (decoderReset d)).length = s.decs.length := List.length_set
  have hdecs := forall_mem_set h.decs k (decoderReset_inv (h.decs d (List.mem_of_getElem? hd)))
  refine setDecs_inv h (hlen.trans_le h.ndec) hdecs hlen.ge fun j x hx hr => ?_
  by_cases hj : k = j
  · subst hj
    exact ⟨decoderReset d, List.getElem?_set_self (List.getElem?_eq_some_iff.mp hd).1, rfl⟩
  · exact ⟨x, (List.getElem?_set_ne hj).trans hx, hr⟩

theorem host_inv {op : HostOp} {s t : State} (h : s.Inv) (ht : HostEffect op s t) : t.Inv := by
  cases ht with
  | reply r n => exact inv_congr h rfl rfl rfl rfl rfl
  | defect c k x n hc =>
    have hfault : c ≠ .none := by rcases hc with rfl | rfl <;> nofun
    exact inv_congr (raiseFatal_inv k 0 x h hfault) rfl rfl rfl rfl rfl
  | register table params nbits cbs hn hi => exact appendDecoder_inv h hn hi
  | dispatch now => exact dispatchReady_inv now h
  | reset k d _ hd => exact inv_congr (resetDecoder_inv h hd) rfl rfl rfl rfl rfl

/-- The invariant does not read the environment. -/
theorem setEnv_inv {s : State} (x : Env) (h : s.Inv) : (s.setEnv x).Inv := inv_congr h rfl rfl rfl rfl rfl

/-- The state after block reset of a legal build meets the invariant (70_reset_and_hazards.md R380). -/
theorem resetOf_inv {c : BuildCfg} (hc : 1 ≤ c.qcapLog2.toNat) : (State.resetOf c).Inv where
  qcap := hc
  queue := Queue.empty_wf (Nat.two_pow_pos _)
  slotsFit e he := by rw [List.eq_of_mem_replicate he]; exact Nat.zero_le _
  ndec := Nat.zero_le _
  decs := nofun
  guard := iff_of_true rfl rfl
  held := nofun
  heldPhase := nofun
  holdFits := Nat.zero_le _
  cur := nofun
  midBurst := nofun
  noFault _ := rfl
  isFault := nofun

/-- Settles O55, by the cases of a step: each agent's action keeps the invariant. -/
theorem stepKeepsInv : Obligations.StepKeepsInv := by
  intro s t h hstep
  cases step_next hstep with
  | pass => exact popTurn_inv h
  | edge ts lvl => exact push_inv ts lvl (popTurn_inv h)
  | consumer _ _ _ ht => exact consumer_inv (popTurn_inv h) ht
  | host op rest _ _ _ _ ht => exact host_inv (setEnv_inv _ h) ht
  | readFault => exact inv_congr h rfl rfl rfl rfl rfl
  | timeout => exact inv_congr h rfl rfl rfl rfl rfl
  | blockReset => exact inv_congr (resetOf_inv h.qcap) rfl rfl rfl rfl rfl

/-! ## The ring as a bounded list -/

/-- A push appends its event, after the oldest one was dropped when `N - 1` were held (44_signal_queue.md R273). -/
theorem queuePush_list {n : Nat} {q : Queue} (e : Event) (hn : 2 ≤ n) (h : q.wf n) :
    queueList n (queuePush n e q) =
      (if queueFull n q = true then (queueList n q).tail else queueList n q) ++ [e] := by
  unfold queuePush
  split_ifs with hfull
  · have hlen := (queueFull_iff_len hn h).mp hfull
    have hdrop := queueDrop_len h (by omega)
    have hroom : queueFull n (queueDrop n q) = false := by
      rw [Bool.eq_false_iff, ne_eq, queueFull_iff_len hn (queueDrop_wf h)]
      omega
    rw [queueWrite_list (queueDrop_wf h) hroom, queueDrop_list h (by omega)]
  · exact queueWrite_list h (Bool.eq_false_iff.mpr hfull)

/-- Settles O42: full is `N - 1` events, and a push drops the oldest exactly then. -/
theorem pushRefinesBoundedList : Obligations.PushRefinesBoundedList := by
  intro n q e hn h
  have hfull : queueFull n q = true ↔ (queueList n q).length = n - 1 := by
    rw [queueList_length, queueFull_iff_len hn h]
  have hempty : queueEmpty q = true ↔ queueList n q = [] := by
    rw [queueEmpty_iff_len h, ← queueList_length, List.length_eq_zero_iff]
  refine ⟨queuePush_wf e h, queueList_length.trans_le (queueLen_le h), hfull, hempty, ?_⟩
  rw [queuePush_list e hn h]
  simp only [hfull]

/-! ## The ready flag -/

/-- Only TERM passes the test of the end of a burst. -/
theorem isTerm_iff {i : Instr} : isTerm i = true ↔ ∃ nt, i = .term nt := by
  cases i <;> simp [isTerm]

/-- A consumer action keeps `ready` of decoder `k` but for a TERM row of decoder `k` itself (43_interpreter.md R237). -/
theorem consumer_ready {s t : State} {k : Nat} {d d' : Decoder} (ht : ConsumerEffect s t)
    (hd : s.decs[k]? = some d) (hd' : t.decs[k]? = some d') :
    d'.ready = d.ready ∨ (d'.ready = true ∧ s.cons.phase = .feed ∧ s.cons.cur = k ∧
      ∃ w nt, d.table[d.status.toNat]? = some w ∧ decode w = .ok (.term nt)) := by
  have same : t.decs = s.decs → d'.ready = d.ready := fun he => by
    rw [he, hd, Option.some.injEq] at hd'
    rw [hd']
  cases ht with
  | disabled | start | exit | fetch | retire => exact .inl (same rfl)
  | feed _ hp hfeed =>
    cases hfeed with
    | done | skip | defect => exact .inl (same rfl)
    | row x x' w i hx hw hi ho =>
      have hdecs : (s.decs.set s.cons.cur x')[k]? = some d' := by
        split_ifs at hd' <;> exact hd'
      by_cases hk : s.cons.cur = k
      · subst hk
        rw [hd, Option.some.injEq] at hx
        rw [List.getElem?_set_self (List.getElem?_eq_some_iff.mp hd).1, Option.some.injEq] at hdecs
        subst hx hdecs
        have hready := (rowOf_ok ho).ready
        cases hterm : isTerm i with
        | false => exact .inl (by rw [hready, hterm, Bool.or_false])
        | true =>
          obtain ⟨nt, rfl⟩ := isTerm_iff.mp hterm
          exact .inr ⟨by rw [hready, hterm, Bool.or_true], hp, rfl, w, nt, hw, hi⟩
      · rw [List.getElem?_set_ne hk, hd, Option.some.injEq] at hdecs
        exact .inl (by rw [hdecs])

/-- A host operation keeps `ready` of decoder `k` but for a reset of decoder `k` and a dispatch (10_state.md R25). -/
theorem host_ready {op : HostOp} {s t : State} {k : Nat} {d d' : Decoder} (ht : HostEffect op s t)
    (hd : s.decs[k]? = some d) (hd' : t.decs[k]? = some d') :
    d'.ready = d.ready ∨
      (d'.ready = false ∧ (op = .resetDecoder k ∨ ∃ now, op = .dispatchReadyFrames now)) := by
  have same : t.decs[k]? = s.decs[k]? → d'.ready = d.ready := fun he => by
    rw [he, hd, Option.some.injEq] at hd'
    rw [hd']
  cases ht with
  | reply | defect => exact .inl (same rfl)
  | register => exact .inl (same (List.getElem?_append_left (List.getElem?_eq_some_iff.mp hd).1))
  | dispatch now ho =>
    have hmap : (s.decs.map (dispatchDecoder now))[k]? = some d' := hd'
    rw [List.getElem?_map, hd, Option.map_some, Option.some.injEq] at hmap
    exact .inr ⟨hmap ▸ dispatchDecoder_ready now d, .inr ⟨now, ho⟩⟩
  | reset j x ho =>
    by_cases hj : j = k
    · subst hj
      have hset : (s.decs.set j (decoderReset x))[j]? = some d' := hd'
      rw [List.getElem?_set_self (List.getElem?_eq_some_iff.mp hd).1, Option.some.injEq] at hset
      exact .inr ⟨hset ▸ rfl, .inl ho⟩
    · exact .inl (same (List.getElem?_set_ne hj))

/-- A step changes `ready` of decoder `k` only by a TERM row of decoder `k`, which sets it, and by a reset of decoder `k`
or a dispatch, which clear it (10_state.md R25). -/
theorem step_ready {s t : State} {k : Nat} {d d' : Decoder} (h : step s = .next t)
    (hd : s.decs[k]? = some d) (hd' : t.decs[k]? = some d') :
    d'.ready = d.ready ∨
    (d'.ready = true ∧ nextTurn s = .consumer ∧ s.cons.phase = .feed ∧ s.cons.cur = k ∧
      ∃ w nt, d.table[d.status.toNat]? = some w ∧ decode w = .ok (.term nt)) ∨
    (d'.ready = false ∧ nextTurn s = .host ∧
      (s.env.hostOps.head? = some (.resetDecoder k) ∨ ∃ now, s.env.hostOps.head? = some (.dispatchReadyFrames now))) := by
  have same : t.decs = s.decs → d'.ready = d.ready := fun he => by
    rw [he, hd, Option.some.injEq] at hd'
    rw [hd']
  cases step_next h with
  | pass | edge | readFault | timeout => exact .inl (same rfl)
  | blockReset => cases hd'
  | consumer _ hn _ ht =>
    exact (consumer_ready ht hd hd').imp_right fun ⟨hset, hrow⟩ => .inl ⟨hset, hn, hrow⟩
  | host op rest _ hn ho _ ht =>
    refine (host_ready ht hd hd').imp_right fun ⟨hclear, hop⟩ => .inr ⟨hclear, hn, ?_⟩
    simpa [ho] using hop

/-- Settles O57, by the cases of a step: only the consumer's and the host's actions change a `ready` flag. -/
theorem readyFlagRule : Obligations.ReadyFlagRule := by
  intro s t k d d' _ hstep hd hd'
  obtain he | ⟨ht, hset⟩ | ⟨hf, hclear⟩ := step_ready hstep hd hd'
  · rw [he]
    exact ⟨fun h0 h1 => absurd (h0.symm.trans h1) nofun, fun h1 h0 => absurd (h0.symm.trans h1) nofun⟩
  · exact ⟨fun _ _ => hset, fun _ h0 => absurd (h0.symm.trans ht) nofun⟩
  · exact ⟨fun _ h1 => absurd (hf.symm.trans h1) nofun, fun _ _ => hclear⟩

end Sys2Proof.Machine

/-!
PROOFS. The family of 20_memory.md: what is fixed at registration stays (O60), read off the cases of one step.
-/

namespace Sys2Proof.Machine

open Sys2Proof

/-! ## What registration fixed -/

/-- `t` has the build parameters of `s`, and each decoder of `s` at its index with its configuration (20_memory.md R85). -/
structure KeepsConfig (s t : State) : Prop where
  cfg : t.cfg = s.cfg
  decs : ∀ (k : Nat) (d : Decoder), s.decs[k]? = some d → ∃ d', t.decs[k]? = some d' ∧ d'.config = d.config

variable {s t : State}

/-- An action that writes neither the build parameters nor the decoder list. -/
theorem keepsConfig_of_decs_eq (hcfg : t.cfg = s.cfg) (hdecs : t.decs = s.decs) : KeepsConfig s t :=
  ⟨hcfg, fun _ d hd => ⟨d, hdecs ▸ hd, rfl⟩⟩

/-- An action that writes the registers of one decoder. -/
theorem keepsConfig_of_decs_set {j : Nat} {x x' : Decoder} (hcfg : t.cfg = s.cfg) (hx : s.decs[j]? = some x)
    (hdecs : t.decs = s.decs.set j x') (hconfig : x'.config = x.config) : KeepsConfig s t := by
  refine ⟨hcfg, fun k d hd => ?_⟩
  rw [hdecs]
  by_cases hk : j = k
  · subst hk
    rw [hx, Option.some.injEq] at hd
    exact ⟨x', List.getElem?_set_self (List.getElem?_eq_some_iff.mp hx).1, hd ▸ hconfig⟩
  · exact ⟨d, (List.getElem?_set_ne hk).trans hd, rfl⟩

/-- A registration puts its decoder after the others (45_host_interface.md R311). -/
theorem appendDecoder_keepsConfig (x : Decoder) (s : State) : KeepsConfig s (appendDecoder x s) :=
  ⟨rfl, fun _ d hd => ⟨d, (List.getElem?_append_left (List.getElem?_eq_some_iff.mp hd).1).trans hd, rfl⟩⟩

/-- A dispatch writes registers and callback records only (45_host_interface.md R317, R320). -/
theorem dispatchDecoder_config (now : Stamp) (d : Decoder) : (dispatchDecoder now d).config = d.config := by
  unfold dispatchDecoder
  split_ifs <;> rfl

theorem dispatchReady_keepsConfig (now : Stamp) (s : State) : KeepsConfig s (dispatchReady now s) where
  cfg := rfl
  decs k d hd := by
    have hmap : (dispatchReady now s).decs[k]? = some (dispatchDecoder now d) :=
      List.getElem?_map.trans (congrArg _ hd)
    exact ⟨dispatchDecoder now d, hmap, dispatchDecoder_config now d⟩

/-- Of the consumer's actions only a committed row writes a decoder, and a row keeps its configuration. -/
theorem consumer_keepsConfig (ht : ConsumerEffect s t) : KeepsConfig s t := by
  cases ht with
  | disabled | start | exit | fetch | retire => exact keepsConfig_of_decs_eq rfl rfl
  | feed _ _ hfeed =>
    cases hfeed with
    | done | skip | defect => exact keepsConfig_of_decs_eq rfl rfl
    | row x x' w i hx _ _ ho =>
      split_ifs <;> exact keepsConfig_of_decs_set rfl hx rfl (rowOf_ok ho).config

theorem host_keepsConfig {op : HostOp} (ht : HostEffect op s t) : KeepsConfig s t := by
  cases ht with
  | reply | defect => exact keepsConfig_of_decs_eq rfl rfl
  | register => exact appendDecoder_keepsConfig _ s
  | dispatch now => exact dispatchReady_keepsConfig now s
  | reset k x _ hx => exact keepsConfig_of_decs_set rfl hx rfl rfl

/-- Every step but block reset keeps what registration fixed. -/
theorem step_keepsConfig (h : step s = .next t) (hn : nextTurn s ≠ .blockReset) : KeepsConfig s t := by
  cases step_next h with
  | pass | edge | readFault | timeout => exact keepsConfig_of_decs_eq rfl rfl
  | consumer _ _ _ ht =>
    obtain ⟨hcfg, hdecs⟩ := consumer_keepsConfig ht
    exact ⟨hcfg, hdecs⟩
  | host op rest _ _ _ _ ht =>
    obtain ⟨hcfg, hdecs⟩ := host_keepsConfig ht
    exact ⟨hcfg, hdecs⟩
  | blockReset hb => exact absurd hb hn

/-- Settles O60, by the cases of a step: no agent's action writes a decoder's table, parameter vector or target. -/
theorem configurationImmutable : Obligations.ConfigurationImmutable := by
  intro s t hstep hn
  obtain ⟨hcfg, hdecs⟩ := step_keepsConfig hstep hn
  refine ⟨hcfg, fun k d hd => ?_⟩
  obtain ⟨d', hd', hconfig⟩ := hdecs k d hd
  simp only [Decoder.config, Prod.mk.injEq] at hconfig
  exact ⟨d', hd', hconfig⟩

end Sys2Proof.Machine

/-!
PROOFS. The family of 30_encoding.md: encoder and decoder through one packed row (O2, O3), the mask of an operation (O4), the
table image (O5), the encoded examples (O1) and `JMP` (O6).
-/

namespace Sys2Proof

/-! ## Decoding through the fields -/

/-- What the decoder makes of a row's `OP` and decoded fields when `RES` is 0 (30_encoding.md R101, R102). -/
def instrOfFields (op : BitVec 4) (min max : Operand) (nt nf : Succ) : Except DecodeError Instr :=
  match op.toNat with
  | 0 => .ok (.wait min max nt nf)
  | 1 => .ok (.term nt)
  | 2 => .ok (.chkd min max nt nf)
  | 3 => .ok (.rstb nt)
  | 4 => .ok (.add0 nt)
  | 5 => .ok (.add1 nt)
  | 6 => .ok (.chkb min max nt nf)
  | _ => .error (.reservedOpcode op)

theorem decode_of_rowRes {w : Row} (h : rowRes w = 0) :
    decode w = instrOfFields (rowOp w) (decodeOperand (rowKmin w) (rowVmin w)) (decodeOperand (rowKmax w) (rowVmax w))
      (decodeSucc (rowIt w) (rowNt w)) (decodeSucc (rowIf w) (rowNf w)) :=
  if_neg (not_not_intro h)

/-- Each field of a packed row names the operand or successor it was packed from. -/
theorem decode_packRow {op : BitVec 4} {min max : Operand} {nt nf : Succ} (hmin : min.wf = true) (hmax : max.wf = true) :
    decode (packRow op min max nt nf) = instrOfFields op min max nt nf := by
  rw [decode_of_rowRes (rowRes_packRow ..)]
  simp only [rowOp_packRow, rowKmin_packRow, rowVmin_packRow, rowKmax_packRow, rowVmax_packRow, rowNt_packRow, rowIt_packRow,
    rowNf_packRow, rowIf_packRow, decodeOperand_encode _ hmin, decodeOperand_encode _ hmax, decodeSucc_encode]

/-- Settles O2, by the cases of the instruction: each is one packed row, and a packed row decodes to its fields. -/
theorem decodeOfEncode : Obligations.DecodeOfEncode := by
  intro i hwf
  cases i with
  | wait min max nt nf | chkd min max nt nf | chkb min max nt nf =>
    obtain ⟨hmin, hmax⟩ := Bool.and_eq_true_iff.mp hwf
    exact decode_packRow hmin hmax
  | term nt | rstb nt | add0 nt | add1 nt => exact decode_packRow rfl rfl

/-! ## Encoding what a row decodes to -/

/-- The operations that read every field (30_encoding.md R102). -/
def ReadsAllFields (op : BitVec 4) : Prop := op = 0 ∨ op = 2 ∨ op = 6

/-- The operations that read only `NT` (30_encoding.md R102). -/
def ReadsOnlyNt (op : BitVec 4) : Prop := op = 1 ∨ op = 3 ∨ op = 4 ∨ op = 5

section Fields

variable {op : BitVec 4} {min max : Operand} {nt nf : Succ} {i : Instr}

theorem encode_of_readsAllFields (hop : ReadsAllFields op) (h : instrOfFields op min max nt nf = .ok i) :
    encode i = packRow op min max nt nf := by
  obtain rfl | rfl | rfl := hop <;> (cases h; rfl)

/-- The assembler's values stand in the unread fields (30_encoding.md R120). -/
theorem encode_of_readsOnlyNt (hop : ReadsOnlyNt op) (h : instrOfFields op min max nt nf = .ok i) :
    encode i = packShort op nt := by
  obtain rfl | rfl | rfl | rfl := hop <;> (cases h; rfl)

/-- An `OP` of 0 to 6 is an operation (30_encoding.md R101). -/
theorem instrOfFields_ok (hop : op.toNat ≤ 6) : ∃ i, instrOfFields op min max nt nf = .ok i ∧ i.opcode = op := by
  obtain rfl | rfl | rfl | rfl | rfl | rfl | rfl :
      op = 0 ∨ op = 1 ∨ op = 2 ∨ op = 3 ∨ op = 4 ∨ op = 5 ∨ op = 6 := by bv_omega
  all_goals exact ⟨_, rfl, rfl⟩

end Fields

/-- A row with `RES = 0` is the packed row of its decoded fields. -/
theorem packRow_decoded {w : Row} (h : rowRes w = 0) :
    packRow (rowOp w) (decodeOperand (rowKmin w) (rowVmin w)) (decodeOperand (rowKmax w) (rowVmax w))
      (decodeSucc (rowIt w) (rowNt w)) (decodeSucc (rowIf w) (rowNf w)) = w := by
  apply BitVec.eq_of_toNat_eq
  rw [packRow_toNat, row_toNat w, h]
  simp only [encode_decodeOperand, encode_decodeSucc, BitVec.ofNat_eq_ofNat, BitVec.toNat_zero, Nat.add_zero]

theorem rowRes_encode (i : Instr) : rowRes (encode i) = 0 := by
  cases i <;> exact rowRes_packRow ..

/-- Settles O3: a decoded row is the packed row of its fields, and the encoder packs the fields its operation reads. -/
theorem encodeOfDecode : Obligations.EncodeOfDecode := by
  intro w i h
  obtain ⟨hres, -⟩ := decode_ok_fields h
  rw [decode_of_rowRes hres] at h
  refine ⟨rowRes_encode i, fun hop => ?_, fun hop => ?_⟩
  · exact (encode_of_readsAllFields hop h).trans (packRow_decoded hres)
  · obtain ⟨hind, hfield⟩ := encode_decodeSucc (rowIt w) (rowNt w)
    rw [encode_of_readsOnlyNt hop h]
    exact ⟨rowOp_packRow .., (rowNt_packRow ..).trans hfield, (rowIt_packRow ..).trans hind, rowKmin_packRow ..,
      rowKmax_packRow .., rowVmin_packRow .., rowVmax_packRow .., rowNf_packRow .., rowIf_packRow ..⟩

/-! ## The mask of an operation (30_encoding.md R112) -/

/-- A row is its `OP`, the 54 bits below it and `RES`. -/
theorem row_ext {w w' : Row} (hop : rowOp w = rowOp w') (hmid : w.extractLsb' 6 54 = w'.extractLsb' 6 54)
    (hres : rowRes w = rowRes w') : w = w' := by
  simp only [rowOp, rowRes, BitVec.toNat_eq, BitVec.extractLsb'_toNat, Nat.shiftRight_eq_div_pow] at *
  omega

/-- The match has `OP` and no other bit. -/
theorem opMatch_fields (op : BitVec 4) :
    rowOp (op.setWidth 64 <<< 60) = op ∧ (op.setWidth 64 <<< 60).extractLsb' 6 54 = 0 ∧
    rowRes (op.setWidth 64 <<< 60) = 0 := by
  have hop := op.isLt
  simp only [rowOp, rowRes, BitVec.toNat_eq, BitVec.extractLsb'_toNat, Nat.shiftRight_eq_div_pow, BitVec.toNat_shiftLeft,
    Nat.shiftLeft_eq, BitVec.toNat_setWidth, BitVec.ofNat_eq_ofNat, BitVec.toNat_ofNat]
  omega

/-- The mask keeps `OP` and `RES` and clears every other bit. -/
theorem masked_fields (w : Row) :
    rowOp (w &&& 0xF00000000000003F#64) = rowOp w ∧ (w &&& 0xF00000000000003F#64).extractLsb' 6 54 = 0 ∧
    rowRes (w &&& 0xF00000000000003F#64) = rowRes w := by
  simp only [rowOp, rowRes, BitVec.extractLsb'_and]
  exact ⟨BitVec.and_allOnes, BitVec.and_zero, BitVec.and_allOnes⟩

theorem masked_eq_match_iff (w : Row) (op : BitVec 4) :
    w &&& 0xF00000000000003F#64 = op.setWidth 64 <<< 60 ↔ rowOp w = op ∧ rowRes w = 0 := by
  obtain ⟨hop, hmid, hres⟩ := masked_fields w
  obtain ⟨hop', hmid', hres'⟩ := opMatch_fields op
  constructor
  · intro h
    rw [h] at hop hres
    exact ⟨hop.symm.trans hop', hres.symm.trans hres'⟩
  · rintro ⟨rfl, h⟩
    exact row_ext (hop.trans hop'.symm) (hmid.trans hmid'.symm) ((hres.trans h).trans hres'.symm)

/-- Settles O4: the mask and the match say `OP` and `RES = 0`, which is what the decoder asks of a row. -/
theorem maskSelectsOperation : Obligations.MaskSelectsOperation := by
  refine ⟨fun w op hle h => ?_, fun w i h => ?_⟩
  · obtain ⟨rfl, hres⟩ := (masked_eq_match_iff w op).mp h
    rw [decode_of_rowRes hres]
    exact instrOfFields_ok hle
  · obtain ⟨hres, hop, -, hle⟩ := decode_ok_fields h
    exact ⟨(masked_eq_match_iff w i.opcode).mpr ⟨hop.symm, hres⟩, hop, hop ▸ hle⟩

/-! ## The table image (30_encoding.md R121, 20_memory.md R74) -/

/-- Byte `j` of a row is the 8 bits from bit `8 * (7 - j)` up: the most significant byte stands first. -/
theorem rowBytes_eq_map (w : Row) : rowBytes w = (List.range 8).map fun j => w.extractLsb' (8 * (7 - j)) 8 := rfl

theorem rowBytes_getElem? (w : Row) {j : Nat} (hj : j < 8) :
    (rowBytes w)[j]? = some (BitVec.ofNat 8 (w.toNat / 2 ^ (8 * (7 - j)))) := by
  rw [rowBytes_eq_map, List.getElem?_map, List.getElem?_range hj, Option.map_some, BitVec.extractLsb',
    Nat.shiftRight_eq_div_pow]

theorem bytesRow_extracts (w : Row) :
    bytesRow (w.extractLsb' 56 8) (w.extractLsb' 48 8) (w.extractLsb' 40 8) (w.extractLsb' 32 8) (w.extractLsb' 24 8)
      (w.extractLsb' 16 8) (w.extractLsb' 8 8) (w.extractLsb' 0 8) = w := by
  apply BitVec.eq_of_toNat_eq
  simp only [bytesRow, append_toNat_add, BitVec.extractLsb'_toNat, Nat.shiftRight_eq_div_pow]
  omega

theorem takeRow_rowBytes (w : Row) (rest : List Byte) : takeRow (rowBytes w ++ rest) = some (w, rest) :=
  congrArg (fun x => some (x, rest)) (bytesRow_extracts w)

theorem tableImage_length (ws : List Row) : (tableImage ws).length = 8 * ws.length := by
  induction ws with
  | nil => rfl
  | cons w ws ih =>
    rw [tableImage, List.length_append, ih, List.length_cons]
    simp only [rowBytes, List.length_cons, List.length_nil]
    omega

theorem parseImage_tableImage (ws : List Row) : parseImage ws.length (tableImage ws) = some ws := by
  induction ws with
  | nil => rfl
  | cons w ws ih => simp only [tableImage, List.length_cons, parseImage, takeRow_rowBytes, ih]

/-- Settles O5, by induction on the table: taking a row undoes laying out its bytes. -/
theorem tableImageRoundTrip : Obligations.TableImageRoundTrip :=
  ⟨fun ws => ⟨tableImage_length ws, parseImage_tableImage ws⟩, fun w _ hj => rowBytes_getElem? w hj⟩

/-! ## Encoded examples -/

/-- Settles O1: the decoder evaluated on each word. -/
theorem specWordsDecode : Obligations.SpecWordsDecode := by
  unfold Obligations.SpecWordsDecode
  decide

end Sys2Proof

namespace Sys2Proof.Machine

open Sys2Proof

/-! ## The pseudo-instruction `JMP` -/

/-- Settles O6: both sentinels have values, and the branch taken is `t` whatever the range test says. -/
theorem jmpAlwaysTaken : Obligations.JmpAlwaysTaken := by
  intro s d t n hd ht
  have hrow : rowOf (jmp t) d s.cons.hold = .ok { d with status := n } := by
    have hzero : OperandIs d (.sen .zero) 0 := rfl
    have hmax : OperandIs d (.sen .max) 0xFFFF := rfl
    calc rowOf (jmp t) d s.cons.hold
        = checkRow (.sen .zero) (.sen .max) t t (d.cnt.setWidth 16) d := rfl
      _ = commitSucc t d := by rw [checkRow_of_is hzero hmax, ite_self]
      _ = .ok { d with status := n } := commitSucc_of_is ht
  rw [exec_eq_rowStep]
  exact rowStep_ok hd hrow

end Sys2Proof.Machine

/-!
PROOFS. The family of 40_compressor.md: the bands of the compressor and of its inverse (O32), monotonic and onto (O33),
the round trip (O34).
-/

namespace Sys2Proof.Machine

open Sys2Proof

/-! ## The bands, said once -/

/-- The band of a duration and its code (40_compressor.md R141 to R144). -/
theorem compressNat_cases (u : Nat) :
    (u < 2048 ∧ compressNat u = u / 16) ∨
    (2048 ≤ u ∧ u < 17408 ∧ compressNat u = 128 + (u - 2048) / 128) ∨
    (17408 ≤ u ∧ u < 46080 ∧ compressNat u = 248 + (u - 17408) / 4096) ∨
    (46080 ≤ u ∧ compressNat u = 255) := by
  simp only [compressNat, Nat.shiftRight_eq_div_pow, Nat.reducePow]
  split_ifs <;> omega

/-- The band of a code and its lowest duration (40_compressor.md R146). -/
theorem uncompactNat_cases (c : Nat) :
    (c < 128 ∧ uncompactNat c = 16 * c) ∨
    (128 ≤ c ∧ c < 248 ∧ uncompactNat c = 2048 + 128 * (c - 128)) ∨
    (248 ≤ c ∧ c < 255 ∧ uncompactNat c = 17408 + 4096 * (c - 248)) ∨
    (255 ≤ c ∧ uncompactNat c = 46080) := by
  simp only [uncompactNat, Nat.shiftLeft_eq, Nat.reducePow]
  split_ifs <;> omega

theorem compressNat_le (u : Nat) : compressNat u ≤ 255 := by
  obtain ⟨_, h⟩ | ⟨_, _, h⟩ | ⟨_, _, h⟩ | ⟨_, h⟩ := compressNat_cases u <;> omega

theorem uncompactNat_le (c : Nat) : uncompactNat c ≤ 46080 := by
  obtain ⟨_, h⟩ | ⟨_, _, h⟩ | ⟨_, _, h⟩ | ⟨_, h⟩ := uncompactNat_cases c <;> omega

@[simp] theorem compress8_toNat (u : Entry) : (compress8 u).toNat = compressNat u.toNat :=
  Nat.mod_eq_of_lt (Nat.lt_succ_of_le (compressNat_le _))

@[simp] theorem uncompact8_toNat (c : Byte) : (uncompact8 c).toNat = uncompactNat c.toNat :=
  Nat.mod_eq_of_lt (Nat.lt_of_le_of_lt (uncompactNat_le _) (by decide))

theorem compress_true (u : Entry) : compress true u = (compress8 u).setWidth 16 := rfl

/-- Widening a code to the 16 bits of the active mode keeps its value. -/
theorem compress_true_toNat (u : Entry) : (compress true u).toNat = (compress8 u).toNat := by
  rw [compress_true, BitVec.toNat_setWidth_of_le (by decide)]

/-- The 16-bit form of a code stands for that code. -/
theorem uncompact_true_setWidth (c : Byte) : uncompact true (c.setWidth 16) = uncompact8 c :=
  congrArg uncompact8 (by rw [BitVec.setWidth_setWidth_of_le _ (by decide), BitVec.setWidth_eq])

/-- Settles O32: the four bands of the compressor, and both functions of the two modes. -/
theorem compressBands : Obligations.CompressBands := by
  intro u
  rw [compress8_toNat]
  have hbands := compressNat_cases u.toNat
  exact ⟨fun _ => by omega, fun _ _ => by omega, fun _ _ => by omega, fun _ => by omega,
    (compress_true_toNat u).trans (compress8_toNat u), rfl, rfl⟩

/-! ## The two functions together -/

/-- `uncompact c` is the least duration whose code reaches `c`: compressor and inverse form a Galois connection. -/
theorem le_compressNat_iff {c : Nat} (hc : c ≤ 255) (u : Nat) : c ≤ compressNat u ↔ uncompactNat c ≤ u := by
  have hcode := compressNat_cases u
  obtain ⟨_, h⟩ | ⟨_, _, h⟩ | ⟨_, _, h⟩ | ⟨_, h⟩ := uncompactNat_cases c <;> rw [h] <;> omega

theorem compressNat_mono {a b : Nat} (h : a ≤ b) : compressNat a ≤ compressNat b := by
  have hle : uncompactNat (compressNat a) ≤ a := (le_compressNat_iff (compressNat_le a) a).mp le_rfl
  exact (le_compressNat_iff (compressNat_le a) b).mpr (hle.trans h)

/-- The lowest duration of a band step lies in that band, and its code is the step's. -/
theorem compressNat_uncompactNat {c : Nat} (hc : c ≤ 255) : compressNat (uncompactNat c) = c := by
  have hcode := compressNat_cases (uncompactNat c)
  obtain ⟨_, h⟩ | ⟨_, _, h⟩ | ⟨_, _, h⟩ | ⟨_, h⟩ := uncompactNat_cases c <;> rw [h] at hcode ⊢ <;> omega

@[simp] theorem compress8_uncompact8 (c : Byte) : compress8 (uncompact8 c) = c :=
  BitVec.eq_of_toNat_eq (by simpa using compressNat_uncompactNat (Nat.le_of_lt_succ c.isLt))

/-- Settles O33: monotonic on naturals, and each code is the code of its lowest duration. -/
theorem compressMonotoneOnto : Obligations.CompressMonotoneOnto :=
  ⟨fun a b h => by simpa [BitVec.le_def] using compressNat_mono h, fun c => ⟨uncompact8 c, compress8_uncompact8 c⟩⟩

/-- Settles O34: the round trip on durations is the one on codes, taken at the code of the duration. -/
theorem compressRoundTrip : Obligations.CompressRoundTrip := by
  refine ⟨fun c => ?_, fun u => compress8_uncompact8 (compress8 u), compress8_uncompact8, by decide⟩
  rw [uncompact8_toNat]
  have hbands := uncompactNat_cases c.toNat
  exact ⟨fun _ => by omega, fun _ _ => by omega, fun _ _ => by omega, fun _ => by omega, uncompact_true_setWidth c⟩

end Sys2Proof.Machine

/-!
PROOFS. The family of 41_table_builder.md: the row with its references replaced (O25), the windows of a level (O35), what a
build answers (O38), and the vector of a build that succeeds (O36, O37).
-/

namespace Sys2Proof.Machine

open Sys2Proof

/-! ## A row with its parameter references replaced -/

section Inline

variable {d : Decoder}

/-- The literal that replaces a legal parameter reference has the value it referred to. -/
theorem inlineOperand_is {o : Operand} {v : Entry} (h : OperandIs d o v) : OperandIs d (inlineOperand d o) v := by
  cases o with
  | lit | sen => exact h
  | par i => simp [inlineOperand, OperandIs, List.getD, show d.params[i.toNat]? = some v from h]
  | pind i =>
    obtain ⟨j, hj, hv⟩ := h
    simp [inlineOperand, OperandIs, List.getD, hj, hv]

/-- The direct successor that replaces a legal indirect one names the same row. -/
theorem inlineSucc_is {t : Succ} {n : Index8} (h : SuccIs d t n) : SuccIs d (inlineSucc d t) n := by
  have hlt := h.lt
  cases t with
  | direct m => exact h
  | indirect i =>
    obtain ⟨p, hp, _, rfl⟩ := h
    simpa [inlineSucc, SuccIs, List.getD, hp] using hlt

/-- The accumulator is no part of what a successor names. -/
theorem SuccIs.setAcc {t : Succ} {n : Index8} (h : SuccIs d t n) (v : Nat) (cnt : Index8) :
    SuccIs { d with v := v, cnt := cnt } t n := by
  cases t <;> exact h

theorem commitSucc_inline {t : Succ} (h : ∃ n, SuccIs d t n) : commitSucc (inlineSucc d t) d = commitSucc t d := by
  obtain ⟨n, hn⟩ := h
  rw [commitSucc_of_is (inlineSucc_is hn), commitSucc_of_is hn]

theorem checkRow_inline {min max : Operand} {nt nf : Succ} (x : Entry) (hmin : ∃ v, OperandIs d min v)
    (hmax : ∃ v, OperandIs d max v) (hnt : ∃ n, SuccIs d nt n) (hnf : ∃ n, SuccIs d nf n) :
    checkRow (inlineOperand d min) (inlineOperand d max) (inlineSucc d nt) (inlineSucc d nf) x d =
      checkRow min max nt nf x d := by
  obtain ⟨lo, hlo⟩ := hmin
  obtain ⟨hi, hhi⟩ := hmax
  rw [checkRow_of_is (inlineOperand_is hlo) (inlineOperand_is hhi), checkRow_of_is hlo hhi]
  split_ifs
  · exact commitSucc_inline hnt
  · exact commitSucc_inline hnf

/-- An append row commits its successor after the append, which a legal successor does not see. -/
theorem appendRow_inline (b : Bool) {nt : Succ} (h : ∃ n, SuccIs d nt n) :
    appendRow b (inlineSucc d nt) d = appendRow b nt d := by
  obtain ⟨n, hn⟩ := h
  unfold appendRow accAddBit
  split_ifs
  · rfl
  · exact (commitSucc_of_is ((inlineSucc_is hn).setAcc _ _)).trans (commitSucc_of_is (hn.setAcc _ _)).symm

/-- 41_table_builder.md R174: on its own decoder the row with its references replaced is the shared row. -/
theorem rowOf_inline {i : Instr} (e : Event) (h : InstrLegal d i) : rowOf (inlineInstr d i) d e = rowOf i d e := by
  cases i with
  | wait | chkd | chkb =>
    obtain ⟨hmin, hmax, hnt, hnf⟩ := h
    exact checkRow_inline _ hmin hmax hnt hnf
  | term nt => simp only [inlineInstr, rowOf, terminateRow, commitSucc_inline h]
  | rstb nt => simp only [inlineInstr, rowOf, resetRow, commitSucc_inline h]
  | add0 nt | add1 nt => exact appendRow_inline _ h

end Inline

/-- Row functions that agree on the decoder being fed and the held event give the same step. -/
theorem rowStep_congr {f g : Decoder → Event → Except Defect Decoder} {s : State} {d : Decoder}
    (hd : s.decs[s.cons.cur]? = some d) (h : f d s.cons.hold = g d s.cons.hold) : rowStep f s = rowStep g s := by
  simp only [rowStep, hd, h]

/-- Settles O25, by the row functions of both instructions on the decoder being fed. -/
theorem privateCopyRunsAlike : Obligations.PrivateCopyRunsAlike := by
  intro i s d hd hlegal
  rw [exec_eq_rowStep, exec_eq_rowStep]
  exact rowStep_congr hd (rowOf_inline s.cons.hold hlegal)

/-! ## Codes of the builder -/

/-- The code of a width, as a natural. -/
theorem codeOf_eq (enabled : Bool) (x : Nat) :
    codeOf enabled x = if enabled then compressNat (sat16 x) else sat16 x := by
  have hsat : (BitVec.ofNat 16 (sat16 x)).toNat = sat16 x :=
    Nat.mod_eq_of_lt (Nat.lt_succ_of_le (Nat.min_le_right _ _))
  cases enabled with
  | false => exact hsat
  | true => rw [codeOf, compress_true_toNat, compress8_toNat, hsat, if_pos rfl]

theorem codeOf_mono (enabled : Bool) {x y : Nat} (h : x ≤ y) : codeOf enabled x ≤ codeOf enabled y := by
  have hsat : sat16 x ≤ sat16 y := min_le_min_right _ h
  rw [codeOf_eq, codeOf_eq]
  split_ifs
  · exact compressNat_mono hsat
  · exact hsat

theorem codeOf_le_dmax (enabled : Bool) (x : Nat) : codeOf enabled x ≤ dmax enabled := compress_le_dmax enabled _

/-- A 16-bit input is not saturated. -/
theorem codeOf_toNat (enabled : Bool) (u : Entry) : codeOf enabled u.toNat = (compress enabled u).toNat := by
  rw [codeOf, sat16, Nat.min_eq_left (Nat.le_of_lt_succ u.isLt), BitVec.ofNat_toNat, BitVec.setWidth_eq]

theorem dmax_lt (enabled : Bool) : dmax enabled < 2 ^ 16 := by cases enabled <;> decide

/-- A value up to `DMAX` is not cut by a slot of the vector. -/
theorem ofNat16_toNat_of_le_dmax {enabled : Bool} {x : Nat} (h : x ≤ dmax enabled) : (BitVec.ofNat 16 x).toNat = x :=
  Nat.mod_eq_of_lt (h.trans_lt (dmax_lt enabled))

/-! ## The windows and the widths -/

/-- The codes of a level with two widths (41_table_builder.md R164). -/
theorem windows_of_ne (enabled : Bool) {s l : Nat} (h : s ≠ l) : windows enabled s l =
    { shortInf := codeOf enabled (s / 4), shortSup := codeOf enabled ((s + l) / 2),
      longInf := codeOf enabled ((s + l) / 2) + 1, longSup := codeOf enabled (l + l / 2) } := by
  simp only [windows, h, if_false, Nat.shiftRight_eq_div_pow, Nat.reducePow]

/-- The codes of a degenerate level (41_table_builder.md R165). -/
theorem windows_self (enabled : Bool) (s : Nat) : windows enabled s s =
    { shortInf := codeOf enabled (s / 4), shortSup := codeOf enabled (s + s / 2),
      longInf := codeOf enabled (s / 4), longSup := codeOf enabled (s + s / 2) } := by
  simp only [windows, if_true, Nat.shiftRight_eq_div_pow, Nat.reducePow]

/-- 41_table_builder.md R166: the order of the codes of a level. -/
theorem windows_ordered (enabled : Bool) {s l : Nat} (h : s < l) :
    (windows enabled s l).shortInf ≤ (windows enabled s l).shortSup ∧
    (windows enabled s l).shortSup < (windows enabled s l).longInf ∧
    (windows enabled s l).shortSup ≤ (windows enabled s l).longSup := by
  rw [windows_of_ne enabled h.ne]
  exact ⟨codeOf_mono enabled (by omega), Nat.lt_succ_self _, codeOf_mono enabled (by omega)⟩

/-- The four codes of a level are codes of the active mode. -/
structure Windows.Fits (enabled : Bool) (w : Windows) : Prop where
  shortInf : w.shortInf ≤ dmax enabled
  shortSup : w.shortSup ≤ dmax enabled
  longInf : w.longInf ≤ dmax enabled
  longSup : w.longSup ≤ dmax enabled

/-- A short band below `DMAX` leaves room for the long one above it (41_table_builder.md R164). -/
theorem windows_fits {enabled : Bool} {s l : Nat} (h : ¬ (s ≠ l ∧ (windows enabled s l).shortSup = dmax enabled)) :
    (windows enabled s l).Fits enabled := by
  have hcode := codeOf_le_dmax enabled
  by_cases hsl : s = l
  · subst hsl
    rw [windows_self]
    exact ⟨hcode _, hcode _, hcode _, hcode _⟩
  · rw [windows_of_ne enabled hsl] at h ⊢
    exact ⟨hcode _, hcode _, (hcode _).lt_of_ne fun he => h ⟨hsl, he⟩, hcode _⟩

theorem levelWidths_manchester {t : TimingParams} (h : t.family = .manchester) : levelWidths t =
    { lowShort := t.lowShort.toNat, lowLong := sat16 (2 * t.lowShort.toNat),
      highShort := t.lowShort.toNat, highLong := sat16 (2 * t.lowShort.toNat) } := if_pos h

/-- Unset high widths are those of the low level (41_table_builder.md R162). -/
theorem levelWidths_mirrored {t : TimingParams} (h : t.family ≠ .manchester) (hs : t.highShort = 0)
    (hl : t.highLong = 0) : levelWidths t =
    { lowShort := t.lowShort.toNat, lowLong := t.lowLong.toNat,
      highShort := t.lowShort.toNat, highLong := t.lowLong.toNat } :=
  (if_neg h).trans (if_pos ⟨hs, hl⟩)

theorem levelWidths_given {t : TimingParams} (h : t.family ≠ .manchester) (hset : t.highShort ≠ 0 ∨ t.highLong ≠ 0) :
    levelWidths t =
    { lowShort := t.lowShort.toNat, lowLong := t.lowLong.toNat,
      highShort := t.highShort.toNat, highLong := t.highLong.toNat } :=
  (if_neg h).trans (if_neg fun ⟨hs, hl⟩ => hset.elim (· hs) (· hl))

/-- Settles O35: the formulas of a level, the order by monotonic codes, and the widths of each kind of registration. -/
theorem windowsOrdered : Obligations.WindowsOrdered :=
  ⟨fun enabled s _ => ⟨windows_of_ne enabled, fun h => h ▸ windows_self enabled s, windows_ordered enabled⟩,
    fun _ _ => ⟨levelWidths_manchester, levelWidths_mirrored, levelWidths_given, rfl, rfl⟩⟩

/-! ## The item a build answers -/

/-- On a list with increasing numbers the item answered is the least that holds (60_exceptions.md R349). -/
theorem firstItem_eq_some_iff {l : List (Nat × Bool)} (hl : l.Pairwise (·.1 < ·.1)) (n : Nat) :
    firstItem l = some n ↔ (n, true) ∈ l ∧ ∀ m < n, (m, true) ∉ l := by
  induction l with
  | nil => simp [firstItem]
  | cons x l ih =>
    obtain ⟨k, b⟩ := x
    obtain ⟨hk, htail⟩ := List.pairwise_cons.mp hl
    cases b with
    | false => simpa [firstItem] using ih htail
    | true =>
      have hhead : firstItem ((k, true) :: l) = some n ↔ k = n := by simp [firstItem]
      rw [hhead]
      constructor
      · rintro rfl
        refine ⟨List.mem_cons_self, fun m hm hmem => ?_⟩
        obtain heq | hlater := List.mem_cons.mp hmem
        · exact hm.ne (congrArg Prod.fst heq)
        · exact hm.not_gt (hk _ hlater)
      · rintro ⟨hmem, hleast⟩
        obtain heq | hlater := List.mem_cons.mp hmem
        · exact (congrArg Prod.fst heq).symm
        · exact absurd List.mem_cons_self (hleast k (hk _ hlater))

theorem firstItem_eq_none_iff {l : List (Nat × Bool)} : firstItem l = none ↔ ∀ n, (n, true) ∉ l := by
  refine ⟨fun h n hn => Bool.noConfusion (firstItem_none h _ hn), fun h => ?_⟩
  cases hfirst : firstItem l with
  | none => rfl
  | some n =>
    obtain ⟨a, b, rfl, _⟩ := firstItem_some hfirst
    exact absurd (List.mem_append_right a List.mem_cons_self) (h n)

section Build

variable {enabled : Bool} {p : Template} {t : TimingParams}

theorem mem_configItems_iff {n : Nat} : (n, true) ∈ configItems enabled p t ↔ ConfigItem enabled p t n :=
  ⟨fun h => (configItems_iff h).mp rfl, configItem_mem⟩

theorem configItems_pairwise (enabled : Bool) (p : Template) (t : TimingParams) :
    (configItems enabled p t).Pairwise (·.1 < ·.1) := by
  simp [configItems]

theorem build_eq_error_iff {n : Nat} :
    build enabled p t = .error n ↔ firstItem (configItems enabled p t) = some n := by
  unfold build
  split <;> simp [*]

/-- A build that succeeds answers the template's table, the vector and the target (41_table_builder.md R160). -/
theorem build_eq_ok_iff {out : List Row × List Entry × Index8} :
    build enabled p t = .ok out ↔
      (∀ n, ¬ ConfigItem enabled p t n) ∧ out = (templateRows p, paramVector enabled p t, BitVec.ofNat 8 t.bitCount) := by
  simp only [← mem_configItems_iff, ← firstItem_eq_none_iff]
  unfold build
  split <;> simp [*, eq_comm]

end Build

/-- Settles O38: the numbers of the items increase, so the first entry that holds is the least item. -/
theorem builderRejectsDefects : Obligations.BuilderRejectsDefects := by
  intro enabled p t
  refine ⟨fun n => ?_, ?_⟩
  · rw [build_eq_error_iff, firstItem_eq_some_iff (configItems_pairwise enabled p t)]
    simp only [mem_configItems_iff]
  · simp only [build_eq_ok_iff, exists_and_left, exists_eq, and_true]

/-! ## The vector of a build without defect -/

section Vector

variable {enabled : Bool} {p : Template} {t : TimingParams}

/-- Without item 6 the windows of both levels are codes, and there is a code above both long bands (R164, R167). -/
theorem levels_fit (h : ¬ ConfigItem enabled p t 6) :
    (lowWindows enabled t).Fits enabled ∧ (highWindows enabled t).Fits enabled ∧ longMax enabled t < dmax enabled := by
  obtain ⟨hlow, hrest⟩ := not_or.mp h
  obtain ⟨hhigh, hmax⟩ := not_or.mp hrest
  have hlow : (lowWindows enabled t).Fits enabled := windows_fits hlow
  have hhigh : (highWindows enabled t).Fits enabled := windows_fits hhigh
  exact ⟨hlow, hhigh, (max_le hlow.longSup hhigh.longSup).lt_of_ne hmax⟩

theorem separator_le_dmax (h : ¬ ConfigItem enabled p t 6) : separator enabled t ≤ dmax enabled := by
  obtain ⟨_, _, hmax⟩ := levels_fit h
  exact max_le (codeOf_le_dmax enabled _) hmax

/-- Slots 0 to 8 hold their codes uncut (41_table_builder.md R168, R170). -/
theorem paramVector_codes (h : ¬ ConfigItem enabled p t 6) :
    ((paramVector enabled p t).map BitVec.toNat).take 9 = [(compress enabled t.initialSequenceMin).toNat,
      (lowWindows enabled t).shortInf, (lowWindows enabled t).shortSup,
      (lowWindows enabled t).longInf, (lowWindows enabled t).longSup,
      (highWindows enabled t).shortInf, (highWindows enabled t).shortSup,
      (highWindows enabled t).longInf, (highWindows enabled t).longSup] := by
  obtain ⟨hlow, hhigh, _⟩ := levels_fit h
  have huncut : ∀ {x}, x ≤ dmax enabled → (BitVec.ofNat 16 x).toNat = x := ofNat16_toNat_of_le_dmax
  have hinit := (huncut (codeOf_le_dmax enabled t.initialSequenceMin.toNat)).trans (codeOf_toNat enabled _)
  simp only [paramVector, List.map_cons, List.take_succ_cons, List.take_zero, hinit, huncut hlow.shortInf,
    huncut hlow.shortSup, huncut hlow.longInf, huncut hlow.longSup, huncut hhigh.shortInf, huncut hhigh.shortSup,
    huncut hhigh.longInf, huncut hhigh.longSup]

theorem templateRows_length (p : Template) : 1 ≤ (templateRows p).length ∧ (templateRows p).length ≤ 256 := by
  simp [templateRows]

/-- Without item 7 the entry dispatch is a row of the table (41_table_builder.md R171, R177). -/
theorem entryDispatch_lt (h : ¬ ConfigItem enabled p t 7) : (entryDispatch p t).toNat < (templateRows p).length := by
  obtain ⟨hprefix, hrest⟩ := not_or.mp h
  obtain ⟨hpayload, _⟩ := not_or.mp hrest
  unfold entryDispatch
  split_ifs
  · exact Nat.lt_of_not_le hprefix
  · exact Nat.lt_of_not_le hpayload

/-- Without item 7 the variant dispatch is a row of the table (41_table_builder.md R172, R177). -/
theorem variantDispatch_lt (h : ¬ ConfigItem enabled p t 7) :
    (variantDispatch p t).toNat < (templateRows p).length := by
  obtain ⟨_, hrest⟩ := not_or.mp h
  obtain ⟨_, hinv⟩ := not_or.mp hrest
  unfold variantDispatch
  split_ifs with hfamily
  · exact Nat.lt_of_not_le fun hle => hinv ⟨hfamily, .inr hle⟩
  · exact Nat.lt_of_not_le fun hle => hinv ⟨hfamily, .inl hle⟩
  · exact (templateRows_length p).1

/-- The high widths coincide after mirroring: given ones, or unset ones of equal low widths (R162, R172). -/
theorem highWidths_eq_iff (h : t.family ≠ .manchester) :
    (levelWidths t).highShort = (levelWidths t).highLong ↔
      t.highShort = t.highLong ∧ (t.highShort ≠ 0 ∨ t.lowShort = t.lowLong) := by
  by_cases hset : t.highShort ≠ 0 ∨ t.highLong ≠ 0
  · rw [levelWidths_given h hset, BitVec.toNat_inj]
    exact ⟨fun he => ⟨he, .inl (hset.elim id fun hl => he ▸ hl)⟩, And.left⟩
  · obtain ⟨hs, hl⟩ := not_or.mp hset
    rw [not_not] at hs hl
    rw [levelWidths_mirrored h hs hl, BitVec.toNat_inj]
    simp [hs, hl]

theorem variantDispatch_tribitInv (h : t.family = .tribitInv) : variantDispatch p t =
    if t.highShort = t.highLong ∧ (t.highShort ≠ 0 ∨ t.lowShort = t.lowLong) then p.specialRow else p.normalRow := by
  have hfamily : t.family ≠ .manchester := by rw [h]; decide
  simp only [variantDispatch, if_pos h, highWidths_eq_iff hfamily]

/-- 41_table_builder.md R177: with a template that meets the rule's premise and both dispatch slots inside the table, every
successor field names a row. -/
theorem succ_in_table (hp : TemplateBounded p) (h : ¬ ConfigItem enabled p t 7) {d : Decoder}
    (ht : d.table = templateRows p) (hv : d.params = paramVector enabled p t) {w : Row} (hw : w ∈ templateRows p)
    {i : Instr} (hi : decode w = .ok i) {f : Succ} (hf : f ∈ succsOf i) : ∃ n, SuccIs d f n := by
  have hbound := hp w hw i hi f hf
  cases f with
  | direct m => exact ⟨m, rfl, ht ▸ hbound⟩
  | indirect j =>
    obtain rfl | rfl := hbound
    · exact ⟨_, _, hv ▸ rfl, ht ▸ entryDispatch_lt h, rfl⟩
    · exact ⟨_, _, hv ▸ rfl, ht ▸ variantDispatch_lt h, rfl⟩

/-- Without item 5 the target is not cut (41_table_builder.md R168). -/
theorem bitCount_le (h : ¬ ConfigItem enabled p t 5) : t.bitCount ≤ 255 := Nat.le_of_not_lt (not_or.mp h).2

end Vector

/-- Settles O36: without item 6 a code is left above both long bands, and slot 9 holds the separator uncut. -/
theorem separatorExceedsLongBands : Obligations.SeparatorExceedsLongBands := by
  intro enabled p t table params nbits h
  obtain ⟨hitems, hout⟩ := build_eq_ok_iff.mp h
  cases hout
  have hle := separator_le_dmax (hitems 6)
  have hlong : longMax enabled t < separator enabled t := Nat.lt_of_succ_le (le_max_right _ _)
  refine ⟨BitVec.ofNat 16 (separator enabled t), rfl, ?_⟩
  rw [ofNat16_toNat_of_le_dmax hle]
  exact ⟨(le_max_left _ _).trans_lt hlong, (le_max_right _ _).trans_lt hlong,
    congrArg (max · _) (codeOf_toNat enabled t.separatorMin), hle⟩

/-- Settles O37: the slots of the vector one by one; items 5, 6 and 7 bound the target, the codes and the dispatch rows. -/
theorem builderVector : Obligations.BuilderVector := by
  intro enabled p t table params nbits h
  obtain ⟨hitems, hout⟩ := build_eq_ok_iff.mp h
  cases hout
  have hbits := bitCount_le (hitems 5)
  obtain ⟨hpos, hlen⟩ := templateRows_length p
  refine ⟨rfl, hpos, hlen, rfl, Nat.mod_eq_of_lt (by omega), paramVector_codes (hitems 6), ?_, ?_, ?_, ?_,
    ⟨_, rfl, Nat.mod_eq_of_lt (by omega)⟩, ⟨_, rfl, entryDispatch_lt (hitems 7), rfl⟩,
    ⟨_, rfl, variantDispatch_lt (hitems 7), fun hf => if_neg hf, variantDispatch_tribitInv⟩, rfl, rfl,
    fun hp d ht hv w hw i hi f hf => succ_in_table hp (hitems 7) ht hv hw hi hf⟩
  · exact congrArg some (apply_ite Prod.fst _ _ _)
  · exact congrArg some (apply_ite Prod.snd _ _ _)
  · exact congrArg some (apply_ite Prod.fst _ _ _)
  · exact congrArg some (apply_ite Prod.snd _ _ _)

end Sys2Proof.Machine

/-!
PROOFS. The family of 42_bit_accumulator.md: appends (O26), the comparison (O31), the readouts of a ready frame (O27) and of one
that is not (O29), the hex dump (O30).
-/

namespace Sys2Proof.Machine

open Sys2Proof

/-! ## Appends -/

section Appends

variable {d d' : Decoder}

/-- An append to a full accumulator (42_bit_accumulator.md R194). -/
theorem accAddBit_full (b : Bool) (h : d.cnt = d.nbits) :
    accAddBit b d = .error { code := .bitOverflow, val := d.cnt.setWidth 16 } := if_pos h

/-- An append that is not full shifts the value up by one bit (42_bit_accumulator.md R193). -/
theorem accAddBit_of_ne (b : Bool) (h : d.cnt ≠ d.nbits) :
    accAddBit b d = .ok { d with v := Nat.bit b d.v, cnt := d.cnt + 1 } := by
  rw [Nat.bit_val]
  exact if_neg h

/-- `d'` is `d` with the bits `bs` in its accumulator, the first one the most significant. -/
structure Records (d : Decoder) (bs : List Bool) (d' : Decoder) : Prop where
  frame : d' = { d with v := d'.v, cnt := d'.cnt }
  cnt : d'.cnt.toNat = bs.length
  v_lt : d'.v < 2 ^ bs.length
  bits : ∀ (i : Nat) (b : Bool), bs[i]? = some b → d'.v.testBit (bs.length - 1 - i) = b

/-- An empty accumulator records no bit. -/
theorem records_nil (hv : d.v = 0) (hc : d.cnt = 0) : Records d [] d :=
  ⟨rfl, by rw [hc]; rfl, by rw [hv]; exact Nat.one_pos, fun _ _ h => by simp at h⟩

namespace Records

variable {bs : List Bool}

theorem nbits (h : Records d bs d') : d'.nbits = d.nbits := by rw [h.frame]

theorem full_iff (h : Records d bs d') : d'.cnt = d'.nbits ↔ bs.length = d.nbits.toNat := by
  rw [h.nbits, ← BitVec.toNat_inj, h.cnt]

/-- Below the target one more append succeeds, and its bit comes after the others. -/
theorem append (h : Records d bs d') (hlt : bs.length < d.nbits.toNat) (b : Bool) :
    ∃ d'', accAddBit b d' = .ok d'' ∧ Records d (bs ++ [b]) d'' := by
  have hcnt : (d'.cnt + 1).toNat = bs.length + 1 := by
    rw [BitVec.toNat_add_of_lt (by rw [h.cnt]; exact (Nat.succ_le_of_lt hlt).trans_lt d.nbits.isLt), h.cnt]
    rfl
  refine ⟨_, accAddBit_of_ne b fun hfull => hlt.ne (h.full_iff.mp hfull), ?_, ?_, ?_, fun i c hi => ?_⟩
  · rw [h.frame]
  · rw [List.length_append]
    exact hcnt
  · rw [List.length_append]
    exact Nat.bit_lt_two_pow_succ_iff.mpr h.v_lt
  · rw [List.length_append, List.length_singleton, Nat.add_sub_cancel]
    obtain hlow | rfl | hout := Nat.lt_trichotomy i bs.length
    · rw [List.getElem?_append_left hlow] at hi
      rw [show bs.length - i = (bs.length - 1 - i).succ by omega, Nat.testBit_bit_succ]
      exact h.bits i c hi
    · rw [List.getElem?_concat_length, Option.some.injEq] at hi
      rw [Nat.sub_self, Nat.testBit_bit_zero, hi]
    · rw [List.getElem?_eq_none (by simpa using hout)] at hi
      cases hi

end Records

/-- Up to the target every append succeeds. -/
theorem foldlM_accAddBit_records (hv : d.v = 0) (hc : d.cnt = 0) (bs : List Bool) (hlen : bs.length ≤ d.nbits.toNat) :
    ∃ d', bs.foldlM (fun a b => accAddBit b a) d = .ok d' ∧ Records d bs d' := by
  induction bs using List.reverseRecOn with
  | nil => exact ⟨d, rfl, records_nil hv hc⟩
  | append_singleton bs b ih =>
    rw [List.length_append] at hlen
    obtain ⟨d', hfold, hd'⟩ := ih (Nat.le_of_succ_le hlen)
    obtain ⟨d'', hadd, hd''⟩ := hd'.append hlen b
    refine ⟨d'', ?_, hd''⟩
    calc (bs ++ [b]).foldlM (fun a b => accAddBit b a) d
        = accAddBit b d' >>= pure := by rw [List.foldlM_append, hfold]; rfl
      _ = .ok d'' := by rw [hadd]; rfl

end Appends

/-- Settles O26, by induction on the bits from the last one: `Records` holds of the empty accumulator and each append below the
target keeps it. -/
theorem appendsBuildValue : Obligations.AppendsBuildValue := by
  intro d bs hv hc hlen
  obtain ⟨d', hfold, hd'⟩ := foldlM_accAddBit_records hv hc bs hlen
  exact ⟨d', hfold, hd'.frame, hd'.cnt, hd'.v_lt, hd'.bits, fun hn b => accAddBit_full b (hd'.full_iff.mpr hn)⟩

/-! ## Comparison -/

section Compare

variable {a b : Frame}

/-- `compare` answers less (42_bit_accumulator.md R200). -/
theorem compareFrames_eq_lt_iff : compareFrames a b = .lt ↔ a.cnt < b.cnt ∨ a.cnt = b.cnt ∧ a.v < b.v := by
  unfold compareFrames
  split_ifs <;> grind

theorem compareFrames_eq_gt_iff : compareFrames a b = .gt ↔ compareFrames b a = .lt := by
  rw [compareFrames_eq_lt_iff]
  unfold compareFrames
  split_ifs <;> grind

theorem compareFrames_eq_eq_iff : compareFrames a b = .eq ↔ a = b := by
  unfold compareFrames
  cases a; cases b
  split_ifs <;> grind

end Compare

/-- Below a power of two the order is that of the bits, at the highest bit where the two differ. -/
theorem lt_iff_highest_differing_bit {n x y : Nat} (hx : x < 2 ^ n) (hy : y < 2 ^ n) :
    x < y ↔ ∃ i, i < n ∧ (∀ j, i < j → j < n → x.testBit j = y.testBit j) ∧
      x.testBit i = false ∧ y.testBit i = true := by
  have hhigh : ∀ j, n ≤ j → x.testBit j = y.testBit j := fun j hj => by
    rw [Nat.testBit_lt_two_pow (hx.trans_le (Nat.pow_le_pow_right Nat.two_pos hj)),
      Nat.testBit_lt_two_pow (hy.trans_le (Nat.pow_le_pow_right Nat.two_pos hj))]
  constructor
  · intro hlt
    obtain ⟨i, hi, habove⟩ := Nat.exists_most_significant_bit (mt Nat.xor_eq_zero_iff.mp hlt.ne)
    simp only [Nat.testBit_xor, bne_iff_ne, ne_eq, bne_eq_false_iff_eq] at hi habove
    have hin : i < n := Nat.lt_of_not_le fun hle => hi (hhigh i hle)
    cases hxi : x.testBit i with
    | false => exact ⟨i, hin, fun j hj _ => habove j hj, hxi, by simpa [hxi] using hi⟩
    | true =>
      have hyi : y.testBit i = false := by simpa [hxi] using hi
      exact absurd (Nat.lt_of_testBit i hyi hxi fun j hj => (habove j hj).symm) hlt.not_gt
  · rintro ⟨i, _, habove, hxi, hyi⟩
    refine Nat.lt_of_testBit i hxi hyi fun j hj => ?_
    obtain hjn | hjn := Nat.lt_or_ge j n
    · exact habove j hj hjn
    · exact hhigh j hjn

/-- Settles O31: of equal counts the values are compared, and their order is that of the highest differing bit. -/
theorem compareIsLexicographic : Obligations.CompareIsLexicographic := by
  intro a b ha hb
  refine ⟨compareFrames_eq_eq_iff, ?_, compareFrames_eq_gt_iff⟩
  rw [compareFrames_eq_lt_iff, BitVec.lt_def]
  refine or_congr_right (and_congr_right fun hcnt => lt_iff_highest_differing_bit ha ?_)
  rw [hcnt]
  exact hb

/-! ## Readouts -/

section Readout

variable {s : State} {k : Nat} {d : Decoder}

/-- An operation on a handle that a registration returned. -/
theorem onDecoder_some (hd : s.decs[k]? = some d) (f : Decoder → State) : onDecoder k f s = .next (f d) := by
  rw [onDecoder, hd]

/-- While the frame is ready a readout answers the frame's value (42_bit_accumulator.md R201). -/
theorem readoutReply_ready (hr : d.ready = true) (frame free : Reply) (s : State) :
    readoutReply d frame free s = s.setReply frame := if_pos hr

/-- Otherwise it answers a free value (42_bit_accumulator.md R201, log 13). -/
theorem readoutReply_unready (hr : d.ready = false) (frame free : Reply) (s : State) :
    readoutReply d frame free s = (s.setReply free).bumpFree := by
  rw [readoutReply, hr]
  rfl

/-- A readout of a ready frame through a handle. -/
theorem onDecoder_readout_ready (hd : s.decs[k]? = some d) (hr : d.ready = true) {f : Decoder → State} {frame free : Reply}
    (hf : f d = readoutReply d frame free s) : onDecoder k f s = .next (s.setReply frame) := by
  rw [onDecoder_some hd, hf, readoutReply_ready hr]

/-- A readout of a decoder that is not ready through a handle. -/
theorem onDecoder_readout_unready (hd : s.decs[k]? = some d) (hr : d.ready = false) {f : Decoder → State} {frame free : Reply}
    (hf : f d = readoutReply d frame free s) : onDecoder k f s = .next ((s.setReply free).bumpFree) := by
  rw [onDecoder_some hd, hf, readoutReply_unready hr]

end Readout

/-- A byte of the value by division (42_bit_accumulator.md R198). -/
theorem byteAt_eq (v i : Nat) : byteAt v i = BitVec.ofNat 8 (v / 256 ^ i) := by
  rw [byteAt, Nat.shiftRight_eq_div_pow, Nat.pow_mul]

/-- Settles O27: each readout through its handle; an index in range selects the branch without the fault. -/
theorem readoutOfReadyFrame : Obligations.ReadoutOfReadyFrame := by
  intro s k d hd hr
  refine ⟨onDecoder_readout_ready hd hr rfl, onDecoder_readout_ready hd hr rfl, fun i hi => ?_, fun i hi => ?_, fun f => ?_⟩
  · rw [← Nat.testBit_eq_decide_div_mod_eq]
    exact onDecoder_readout_ready hd hr (if_pos hi)
  · rw [← byteAt_eq]
    exact onDecoder_readout_ready hd hr (if_pos hi)
  · exact onDecoder_readout_ready hd hr rfl

/-! ## The hex dump -/

/-- The sixteen upper-case digits in the order of their values (42_bit_accumulator.md R199). -/
def upperHexDigits : List Char := ['0', '1', '2', '3', '4', '5', '6', '7', '8', '9', 'A', 'B', 'C', 'D', 'E', 'F']

theorem hexDigit_eq_getD : ∀ n < 16, hexDigit n = upperHexDigits.getD n ' ' := by decide

theorem hexByte_eq (b : Byte) :
    hexByte b = [upperHexDigits.getD (b.toNat / 16) ' ', upperHexDigits.getD (b.toNat % 16) ' '] := by
  rw [hexByte, hexDigit_eq_getD _ (Nat.div_lt_of_lt_mul b.isLt), hexDigit_eq_getD _ (Nat.mod_lt _ (by decide))]

theorem hexChars_eq_intercalate (bs : List Byte) : hexChars bs = List.intercalate [' '] (bs.map hexByte) := by
  induction bs using hexChars.induct with
  | case1 => rfl
  | case2 b => exact List.intercalate_singleton.symm
  | case3 b c rest ih =>
    rw [hexChars, ih, List.map_cons, List.map_cons, List.map_cons, List.intercalate_cons_cons, List.append_assoc]
    rfl

/-- The dump without its recursion: the bytes' digits, joined by one space (42_bit_accumulator.md R199). -/
theorem hexDump_eq (bs : List Byte) : hexDump bs =
    if bs = [] then none else some (String.ofList (List.intercalate [' '] (bs.map hexByte))) := by
  cases bs with
  | nil => rfl
  | cons b rest => rw [if_neg (List.cons_ne_nil _ _), ← hexChars_eq_intercalate]; rfl

/-- Settles O29: each readout answers its free value; the free string is a dump of free bytes, so it has the form of R199. -/
theorem readoutOfUnreadyFrame : Obligations.ReadoutOfUnreadyFrame := by
  intro s k d hd hr digit hexForm answers
  have hform : ∀ bs, hexForm bs = hexDump bs := fun bs => by
    rw [hexDump_eq, funext hexByte_eq]
    rfl
  refine ⟨⟨_, onDecoder_readout_unready hd hr rfl⟩, ⟨_, onDecoder_readout_unready hd hr rfl⟩,
    ⟨Config.freeBytes s.aux.freeCtr, ?_⟩, fun f => ⟨_, onDecoder_readout_unready hd hr rfl⟩,
    fun i hi => ⟨_, onDecoder_readout_unready hd hr (if_pos hi)⟩,
    fun i hi => ⟨_, onDecoder_readout_unready hd hr (if_pos hi)⟩⟩
  rw [hform]
  exact onDecoder_readout_unready hd hr rfl

/-- The recorded bytes by position: the first one is the most significant (42_bit_accumulator.md R199). -/
theorem frameBytes_eq (f : Frame) : frameBytes f =
    (List.range (byteCountOf f.cnt)).map fun j => byteAt f.v (byteCountOf f.cnt - 1 - j) := by
  have hrev (n : Nat) : (List.range n).reverse = (List.range n).map (n - 1 - ·) := by
    simpa [List.range_eq_range'] using List.reverse_range' (s := 0) (n := n)
  rw [frameBytes, ← List.map_reverse, hrev, List.map_map]
  rfl

theorem toHexString_empty {f : Frame} (h : f.cnt.toNat = 0) : toHexString f = none := by
  rw [toHexString, frameBytes_eq, byteCountOf, h]
  rfl

theorem toHexString_of_pos {f : Frame} (h : 0 < f.cnt.toNat) : toHexString f =
    some (String.ofList (List.intercalate [' '] ((frameBytes f).map hexByte))) := by
  rw [toHexString, hexDump_eq, if_neg]
  rw [frameBytes_eq, List.map_eq_nil_iff, List.range_eq_nil, byteCountOf]
  omega

/-- Settles O30: the dump joins the frame's bytes, and `n` is 0 exactly when no bit is recorded. -/
theorem hexDumpOfReadyFrame : Obligations.HexDumpOfReadyFrame := by
  intro s k d hd hr n digit byte
  have hread : hostAct (.toHexString k) s = .next (s.setReply (.hex (toHexString (frameOf d)))) :=
    onDecoder_readout_ready hd hr rfl
  refine ⟨fun h => ?_, fun h => ?_⟩
  · rw [hread, toHexString_empty h]
  · rw [hread, toHexString_of_pos h, frameBytes_eq, List.map_map, funext hexByte_eq]
    simp only [Function.comp_def, byteAt_eq, BitVec.toNat_ofNat]
    rfl

end Sys2Proof.Machine

/-!
PROOFS. The family of 43_interpreter.md: the rows by what they answer (O14 to O20), their frames (O21 to O23, O59), what a row
evaluation raises with legal tables (O24), and the micro-steps of a feed that evaluate no row (O9, O10).
-/

namespace Sys2Proof.Machine

open Sys2Proof

/-! ## What one row evaluation answers -/

section Rows

variable {s : State} {d : Decoder} {i : Instr}

/-- A row whose function completes commits the decoder's registers (43_interpreter.md R228). -/
theorem exec_of_rowOf_ok {d' : Decoder} (hd : s.decs[s.cons.cur]? = some d) (h : rowOf i d s.cons.hold = .ok d') :
    exec i s = .next (s.setDec s.cons.cur d') := by
  rw [exec_eq_rowStep, rowStep_ok hd h]

/-- A row whose function raises a defect records it and nothing else (43_interpreter.md R224). -/
theorem exec_of_rowOf_error {c : FaultCode} {x : Entry} (hd : s.decs[s.cons.cur]? = some d)
    (h : rowOf i d s.cons.hold = .error { code := c, val := x }) : exec i s = rowRaises s d c x := by
  rw [exec_eq_rowStep, rowStep_error hd h]
  rfl

/-- Committing an illegal successor raises its defect. -/
theorem commitSucc_of_bad {t : Succ} {c : FaultCode} {x : Entry} (h : SuccBad d t c x) :
    commitSucc t d = .error { code := c, val := x } := by
  simp only [commitSucc, (resolveSucc_error_iff d t { code := c, val := x }).mpr h]

/-! ### Check rows -/

section Check

variable {min max : Operand} {nt nf : Succ}

/-- An illegal min operand is a check row's first defect (43_interpreter.md R223). -/
theorem checkRow_of_min_bad (nt nf : Succ) (max : Operand) (x : Entry) {y : Entry} (h : OperandBad d min y) :
    checkRow min max nt nf x d = .error (badOperand y) := by
  simp only [checkRow, (resolveOperand_error_iff d min _).mpr ⟨y, rfl, h⟩]

/-- An illegal max operand is a check row's second defect (43_interpreter.md R223). -/
theorem checkRow_of_max_bad (nt nf : Succ) (x : Entry) {lo y : Entry} (hlo : OperandIs d min lo) (h : OperandBad d max y) :
    checkRow min max nt nf x d = .error (badOperand y) := by
  simp only [checkRow, (resolveOperand_ok_iff d min lo).mpr hlo, (resolveOperand_error_iff d max _).mpr ⟨y, rfl, h⟩]

/-- The closed-interval test compares numbers (43_interpreter.md R231). -/
theorem inRange_iff {lo hi x : Entry} : inRange lo hi x = true ↔ lo.toNat ≤ x.toNat ∧ x.toNat ≤ hi.toNat := by
  rw [inRange, Bool.and_eq_true, decide_eq_true_iff, decide_eq_true_iff, BitVec.le_def, BitVec.le_def]

theorem levelValue_toNat (lvl : Bool) : (levelValue lvl).toNat = if lvl = true then 1 else 0 := by
  cases lvl <;> rfl

/-- Every form of an instruction that tests the number `m` (43_interpreter.md R223, R231, R240, R242, R246). -/
theorem exec_checkRow {x : Entry} {m : Nat} (hd : s.decs[s.cons.cur]? = some d)
    (hrow : rowOf i d s.cons.hold = checkRow min max nt nf x d) (hx : x.toNat = m) :
    (∀ y, OperandBad d min y → exec i s = rowRaises s d .badOperand y) ∧
    (∀ lo y, OperandIs d min lo → OperandBad d max y → exec i s = rowRaises s d .badOperand y) ∧
    (∀ lo hi, OperandIs d min lo → OperandIs d max hi →
      (∀ n, SuccIs d (if lo.toNat ≤ m ∧ m ≤ hi.toNat then nt else nf) n →
        exec i s = .next (s.setDec s.cons.cur { d with status := n })) ∧
      (∀ c y, SuccBad d (if lo.toNat ≤ m ∧ m ≤ hi.toNat then nt else nf) c y → exec i s = rowRaises s d c y)) := by
  refine ⟨fun y hmin => ?_, fun lo y hlo hmax => ?_, fun lo hi hlo hhi => ?_⟩
  · exact exec_of_rowOf_error hd (hrow.trans (checkRow_of_min_bad nt nf max x hmin))
  · exact exec_of_rowOf_error hd (hrow.trans (checkRow_of_max_bad nt nf x hlo hmax))
  · have hbranch : rowOf i d s.cons.hold = commitSucc (if lo.toNat ≤ m ∧ m ≤ hi.toNat then nt else nf) d := by
      rw [hrow, checkRow_of_is hlo hhi, ← hx]
      simp only [inRange_iff]
    exact ⟨fun n hn => exec_of_rowOf_ok hd (hbranch.trans (commitSucc_of_is hn)),
      fun c y hbad => exec_of_rowOf_error hd (hbranch.trans (commitSucc_of_bad hbad))⟩

end Check

/-! ### TERM and RSTB -/

theorem terminateRow_of_is {nt : Succ} {n : Index8} (h : SuccIs d nt n) :
    terminateRow nt d = .ok { d with status := n, ready := true } := by
  rw [terminateRow, commitSucc_of_is h]
  rfl

theorem terminateRow_of_bad {nt : Succ} {c : FaultCode} {x : Entry} (h : SuccBad d nt c x) :
    terminateRow nt d = .error { code := c, val := x } := by
  rw [terminateRow, commitSucc_of_bad h]

theorem resetRow_of_is {nt : Succ} {n : Index8} (h : SuccIs d nt n) :
    resetRow nt d = .ok { d with status := n, v := 0, cnt := 0 } := by
  rw [resetRow, commitSucc_of_is h]
  rfl

theorem resetRow_of_bad {nt : Succ} {c : FaultCode} {x : Entry} (h : SuccBad d nt c x) :
    resetRow nt d = .error { code := c, val := x } := by
  rw [resetRow, commitSucc_of_bad h]

/-! ### Append rows -/

/-- The accumulator is no part of a successor's defect. -/
theorem SuccBad.setAcc {t : Succ} {c : FaultCode} {x : Entry} (h : SuccBad d t c x) (v : Nat) (cnt : Index8) :
    SuccBad { d with v := v, cnt := cnt } t c x := by
  cases t <;> exact h

/-- A full accumulator is an append row's first defect, whatever its successor is (43_interpreter.md R223). -/
theorem appendRow_full (b : Bool) (nt : Succ) (h : d.cnt = d.nbits) :
    appendRow b nt d = .error { code := .bitOverflow, val := d.cnt.setWidth 16 } := by
  rw [appendRow, accAddBit_full b h]

/-- Below the target an append row commits its successor after the append. -/
theorem appendRow_of_ne (b : Bool) (nt : Succ) (h : d.cnt ≠ d.nbits) :
    appendRow b nt d = commitSucc nt { d with v := 2 * d.v + b.toNat, cnt := d.cnt + 1 } := by
  rw [appendRow, accAddBit_of_ne b h, Nat.bit_val]

/-- Every form of an instruction that appends the bit `b` (43_interpreter.md R223, R244, R245). -/
theorem exec_appendRow {b : Bool} {nt : Succ} (hd : s.decs[s.cons.cur]? = some d)
    (hrow : rowOf i d s.cons.hold = appendRow b nt d) :
    (d.cnt = d.nbits → exec i s = rowRaises s d .bitOverflow (d.cnt.setWidth 16)) ∧
    (d.cnt ≠ d.nbits →
      (∀ n, SuccIs d nt n → exec i s =
        .next (s.setDec s.cons.cur { d with status := n, v := 2 * d.v + b.toNat, cnt := d.cnt + 1 })) ∧
      (∀ c x, SuccBad d nt c x → exec i s = rowRaises s d c x)) := by
  refine ⟨fun hfull => exec_of_rowOf_error hd (hrow.trans (appendRow_full b nt hfull)), fun hne => ?_⟩
  have happend := hrow.trans (appendRow_of_ne b nt hne)
  exact ⟨fun n hn => exec_of_rowOf_ok hd (happend.trans (commitSucc_of_is (hn.setAcc _ _))),
    fun c x hbad => exec_of_rowOf_error hd (happend.trans (commitSucc_of_bad (hbad.setAcc _ _)))⟩

end Rows

/-- Settles O14: WAIT is a check row on the level. -/
theorem waitRow : Obligations.WaitRow :=
  fun s _ _ _ _ _ hd => exec_checkRow hd rfl (levelValue_toNat s.cons.hold.lvl)

/-- Settles O15: CHKD is a check row on the duration code. -/
theorem chkdRow : Obligations.ChkdRow :=
  fun _ _ _ _ _ _ hd => exec_checkRow hd rfl rfl

/-- Settles O16: CHKB is a check row on the bit count, read before the commit. -/
theorem chkbRow : Obligations.ChkbRow :=
  fun _ d _ _ _ _ hd => exec_checkRow hd rfl (index8_widen_toNat d.cnt)

/-- Settles O17, by the two answers of a terminate row. -/
theorem termRow : Obligations.TermRow := fun _ _ _ hd =>
  ⟨fun _ hn => exec_of_rowOf_ok hd (terminateRow_of_is hn), fun _ _ hbad => exec_of_rowOf_error hd (terminateRow_of_bad hbad)⟩

/-- Settles O18, by the two answers of a reset-bits row. -/
theorem rstbRow : Obligations.RstbRow := fun _ _ _ hd =>
  ⟨fun _ hn => exec_of_rowOf_ok hd (resetRow_of_is hn), fun _ _ hbad => exec_of_rowOf_error hd (resetRow_of_bad hbad)⟩

/-- Settles O19: ADD0 is an append row of a zero bit. -/
theorem add0Row : Obligations.Add0Row :=
  fun _ _ _ hd => exec_appendRow (b := false) hd rfl

/-- Settles O20: ADD1 is an append row of a one bit. -/
theorem add1Row : Obligations.Add1Row :=
  fun _ _ _ hd => exec_appendRow (b := true) hd rfl

/-! ## Frames -/

/-- A row evaluation writes the record of the decoder being fed or the fault record, and no more; what that decoder keeps is
what the row's function keeps (43_interpreter.md R220, R228, R236). -/
theorem exec_frame {Keeps : Decoder → Decoder → Prop} {i : Instr} {s t : State} (h : exec i s = .next t)
    (refl : ∀ d, Keeps d d) (row : ∀ d d', rowOf i d s.cons.hold = .ok d' → Keeps d d') :
    t.cfg = s.cfg ∧ t.q = s.q ∧ t.prod = s.prod ∧ t.cons = s.cons ∧ t.host = s.host ∧ t.env = s.env ∧
    t.aux = s.aux ∧ t.decs.length = s.decs.length ∧ (∀ k, k ≠ s.cons.cur → t.decs[k]? = s.decs[k]?) ∧
    (∀ d d' : Decoder, s.decs[s.cons.cur]? = some d → t.decs[s.cons.cur]? = some d' → Keeps d d') ∧
    (t.fault = s.fault ∨ t.decs = s.decs) := by
  obtain ⟨d, hd, ⟨d', hok, rfl⟩ | ⟨e, _, rfl⟩⟩ := exec_next h
  · refine ⟨rfl, rfl, rfl, rfl, rfl, rfl, rfl, List.length_set, fun k hk => List.getElem?_set_ne hk.symm,
      fun x x' hx hx' => ?_, .inl rfl⟩
    rw [hd, Option.some.injEq] at hx
    rw [setDec_decs, List.getElem?_set_self (List.getElem?_eq_some_iff.mp hd).1, Option.some.injEq] at hx'
    exact hx ▸ hx' ▸ row d d' hok
  · refine ⟨rfl, rfl, rfl, rfl, rfl, rfl, rfl, rfl, fun _ _ => rfl, fun x x' hx hx' => ?_, .inr rfl⟩
    obtain rfl : x = x' := Option.some.inj (hx.symm.trans hx')
    exact refl x

/-- Settles O21: a check row that completes writes `status`. -/
theorem checkRowFrame : Obligations.CheckRowFrame := by
  rintro i s t ⟨min, max, nt, nf, hi⟩ h
  have hcheck : ∀ d, ∃ x, rowOf i d s.cons.hold = checkRow min max nt nf x d := fun d => by
    obtain rfl | rfl | rfl := hi <;> exact ⟨_, rfl⟩
  refine exec_frame h (fun d => ⟨rfl, rfl, rfl, rfl, rfl, rfl, rfl⟩) fun d d' hok => ?_
  obtain ⟨x, hx⟩ := hcheck d
  obtain ⟨n, _, rfl⟩ := checkRow_ok (hx ▸ hok)
  exact ⟨rfl, rfl, rfl, rfl, rfl, rfl, rfl⟩

/-- Settles O22: RSTB and the append rows that complete write `status` and the accumulator. -/
theorem accumulatorRowFrame : Obligations.AccumulatorRowFrame := by
  rintro i s t ⟨nt, hi⟩ h
  refine exec_frame h (fun d => ⟨rfl, rfl, rfl, rfl, rfl⟩) fun d d' hok => ?_
  obtain rfl | rfl | rfl := hi
  · obtain ⟨n, _, rfl⟩ := resetRow_ok hok
    exact ⟨rfl, rfl, rfl, rfl, rfl⟩
  · obtain ⟨_, n, _, rfl⟩ := appendRow_ok hok
    exact ⟨rfl, rfl, rfl, rfl, rfl⟩
  · obtain ⟨_, n, _, rfl⟩ := appendRow_ok hok
    exact ⟨rfl, rfl, rfl, rfl, rfl⟩

/-- Settles O23: TERM that completes writes `status` and `ready`. -/
theorem termFrame : Obligations.TermFrame := by
  intro nt s t h
  refine exec_frame h (fun d => ⟨rfl, rfl, rfl, rfl, rfl, rfl⟩) fun d d' hok => ?_
  obtain ⟨n, _, rfl⟩ := terminateRow_ok hok
  exact ⟨rfl, rfl, rfl, rfl, rfl, rfl⟩

/-- Settles O59: the row's function reads the decoder being fed and the held event, which both states share. -/
theorem rowTouchesOwnDecoder : Obligations.RowTouchesOwnDecoder := by
  intro i s u t hcur hhold hfault hdec h
  obtain ⟨d, hd, hcase⟩ := exec_next h
  have hu : u.decs[u.cons.cur]? = some d := hdec.symm.trans hd
  obtain ⟨d', hok, rfl⟩ | ⟨e, herr, rfl⟩ := hcase
  · refine ⟨fun k hk => List.getElem?_set_ne hk.symm, _, exec_of_rowOf_ok hu (hhold ▸ hok), ?_, hfault.symm⟩
    rw [setDec_decs, setDec_decs, List.getElem?_set_self (List.getElem?_eq_some_iff.mp hu).1,
      List.getElem?_set_self (List.getElem?_eq_some_iff.mp hd).1]
  · refine ⟨fun _ _ => rfl, _, exec_of_rowOf_error hu (hhold ▸ herr), hdec.symm, ?_⟩
    rw [raiseFatal_fault, hcur]

/-! ## The feed's micro-step -/

section Feed

variable {s : State} {d : Decoder} {w : Row}

/-- The consumer's turn in phase FEED (44_signal_queue.md R278). -/
theorem step_feed (hn : nextTurn s = .consumer) (hf : s.fault.fatal = false) (hp : s.cons.phase = .feed) :
    step s = feedEvent (popTurn s) := by
  simp [step_consumer hn, consumerTurn, hf, hp]

/-- With every decoder fed the feed ends. -/
theorem feedEvent_of_eq (h : s.cons.cur = s.decs.length) :
    feedEvent s = .next (s.setCons { s.cons with phase := .retire }) := if_pos h

/-- While `cur` names a decoder the feed is a micro-step of its burst. -/
theorem feedEvent_of_some (hd : s.decs[s.cons.cur]? = some d) : feedEvent s = feedDecoder d s := by
  have hlt := (List.getElem?_eq_some_iff.mp hd).1
  simp only [feedEvent, hlt.ne, if_false, hd]

/-- The burst of a decoder whose frame is ready is empty (43_interpreter.md R226). -/
theorem feedDecoder_frozen (hfirst : s.cons.first = true) (hready : d.ready = true) :
    feedDecoder d s = .next (nextDecoder s) := by
  simp [feedDecoder, hfirst, hready]

/-- A `WAIT` row after the head row ends the burst (43_interpreter.md R227). -/
theorem feedDecoder_later_wait (hw : d.table[d.status.toNat]? = some w) (hfirst : s.cons.first = false)
    (hop : rowOp w = 0) : feedDecoder d s = .next (nextDecoder s) := by
  simp [feedDecoder, rowAt, hw, hfirst, hop]

end Feed

/-- Settles O9, by the feed's test of `OP` before the row is evaluated. -/
theorem laterWaitEndsBurst : Obligations.LaterWaitEndsBurst := by
  intro s d w hn hf hp hd hw hfirst hop
  calc step s = feedEvent (popTurn s) := step_feed hn hf hp
    _ = feedDecoder d (popTurn s) := feedEvent_of_some hd
    _ = .next (nextDecoder (popTurn s)) := feedDecoder_later_wait hw hfirst hop

/-- Settles O10, by the feed's test of `ready` at the head of a burst. -/
theorem frozenDecoderSkipsEvent : Obligations.FrozenDecoderSkipsEvent := by
  intro s hn hf hp
  rw [step_feed hn hf hp]
  refine ⟨fun d hd hfirst hready => ?_, fun hcur => feedEvent_of_eq hcur⟩
  rw [feedEvent_of_some (s := popTurn s) hd]
  exact feedDecoder_frozen hfirst hready

/-! ## Legal tables -/

section Legal

variable {d d' : Decoder} {i : Instr}

/-- A legal successor is not illegal. -/
theorem SuccIs.not_bad {t : Succ} {n : Index8} {c : FaultCode} {x : Entry} (h : SuccIs d t n) :
    ¬ SuccBad d t c x := fun hbad => by
  have hok := commitSucc_of_is h
  rw [commitSucc_of_bad hbad] at hok
  cases hok

/-- A check row with legal fields completes. -/
theorem checkRow_legal {min max : Operand} {nt nf : Succ} (x : Entry) (hmin : ∃ v, OperandIs d min v)
    (hmax : ∃ v, OperandIs d max v) (hnt : ∃ n, SuccIs d nt n) (hnf : ∃ n, SuccIs d nf n) :
    ∃ n, checkRow min max nt nf x d = .ok { d with status := n } := by
  obtain ⟨lo, hlo⟩ := hmin
  obtain ⟨hi, hhi⟩ := hmax
  rw [checkRow_of_is hlo hhi]
  split_ifs
  · exact hnt.imp fun _ hn => commitSucc_of_is hn
  · exact hnf.imp fun _ hn => commitSucc_of_is hn

/-- 43_interpreter.md R238: the only defect a legal instruction can raise is `BIT_OVERFLOW`. -/
theorem rowOf_error_of_legal {ev : Event} {e : Defect} (hlegal : InstrLegal d i) (h : rowOf i d ev = .error e) :
    e.code = .bitOverflow := by
  cases i with
  | wait | chkd | chkb =>
    obtain ⟨hmin, hmax, hnt, hnf⟩ := hlegal
    obtain ⟨n, hok⟩ := checkRow_legal _ hmin hmax hnt hnf
    cases hok.symm.trans h
  | term nt =>
    obtain ⟨n, hn⟩ := hlegal
    exact (hn.not_bad (terminateRow_error h).1).elim
  | rstb nt =>
    obtain ⟨n, hn⟩ := hlegal
    exact (hn.not_bad (resetRow_error h).1).elim
  | add0 nt | add1 nt =>
    obtain ⟨n, hn⟩ := hlegal
    obtain ⟨_, rfl⟩ | ⟨_, hbad, _⟩ := appendRow_error h
    · rfl
    · exact (hn.not_bad hbad).elim

theorem operandIs_congr (h : d'.config = d.config) (o : Operand) (v : Entry) : OperandIs d' o v = OperandIs d o v := by
  obtain ⟨-, hparams, hnbits⟩ : d'.table = d.table ∧ d'.params = d.params ∧ d'.nbits = d.nbits := by
    simpa [Decoder.config] using h
  unfold OperandIs
  rw [hparams, hnbits]

theorem succIs_congr (h : d'.config = d.config) (t : Succ) (n : Index8) : SuccIs d' t n = SuccIs d t n := by
  obtain ⟨htable, hparams, -⟩ : d'.table = d.table ∧ d'.params = d.params ∧ d'.nbits = d.nbits := by
    simpa [Decoder.config] using h
  unfold SuccIs
  rw [htable, hparams]

/-- Whether a table is well formed is a matter of the configuration alone. -/
theorem TableLegal.congr (hlegal : TableLegal d) (h : d'.config = d.config) : TableLegal d' := by
  have htable : d'.table = d.table := congrArg Prod.fst h
  intro w hw
  obtain ⟨i, hi, hinstr⟩ := hlegal w (htable ▸ hw)
  refine ⟨i, hi, ?_⟩
  unfold InstrLegal at hinstr ⊢
  simpa only [operandIs_congr h, succIs_congr h] using hinstr

end Legal

section Consumer

variable {s t : State}

/-- A consumer action keeps the tables well formed: it writes no configuration. -/
theorem consumer_tableLegal (h : ∀ d ∈ s.decs, TableLegal d) (ht : ConsumerEffect s t) :
    ∀ d ∈ t.decs, TableLegal d := by
  cases ht with
  | disabled | start | exit | fetch | retire => exact h
  | feed _ _ hfeed =>
    cases hfeed with
    | done | skip | defect => exact h
    | row d d' w i hd _ _ ho =>
      have hd' : TableLegal d' := (h d (List.mem_of_getElem? hd)).congr (rowOf_ok ho).config
      have hset := forall_mem_set h s.cons.cur hd'
      split_ifs <;> exact hset

/-- What the feed does after a row leaves the fault registers alone (60_exceptions.md R351). -/
theorem afterRow_fault (i : Instr) (s : State) : (afterRow i s).fault = s.fault := by
  unfold afterRow
  split_ifs <;> rfl

/-- A row that decodes halts the block only by the defect its function raises. -/
theorem evaluateRow_defect {d : Decoder} {w : Row} {i : Instr} (hf : s.fault.fatal = false)
    (hd : s.decs[s.cons.cur]? = some d) (hi : decode w = .ok i) (h : evaluateRow d w s = .next t)
    (hfatal : t.fault.fatal = true) : ∃ e, rowOf i d s.cons.hold = .error e ∧ t.fault.code = e.code := by
  have hafter : ∀ u, exec i s = .next u → t.fault = u.fault := fun u hu => by
    simp only [evaluateRow, hi, hu, Host.Outcome.next.injEq] at h
    rw [← h, afterRow_fault]
  cases hrow : rowOf i d s.cons.hold with
  | ok d' =>
    rw [hafter _ (exec_of_rowOf_ok hd hrow), setDec_fault, hf] at hfatal
    cases hfatal
  | error e => exact ⟨e, rfl, by rw [hafter _ (exec_of_rowOf_error hd hrow)]⟩

/-- At a row inside the table the burst ends or the row is evaluated (43_interpreter.md R226, R227). -/
theorem feedDecoder_of_row {d : Decoder} {w : Row} (hw : d.table[d.status.toNat]? = some w) :
    feedDecoder d s = .next (nextDecoder s) ∨ feedDecoder d s = evaluateRow d w s := by
  simp only [feedDecoder, rowAt, hw]
  split_ifs
  · exact .inl rfl
  · exact .inl rfl
  · exact .inr rfl

/-- A feed of a decoder with a well-formed table raises no defect but `BIT_OVERFLOW`: its row exists, decodes and is legal. -/
theorem feedDecoder_defect_of_legal {d : Decoder} (hf : s.fault.fatal = false) (hd : s.decs[s.cons.cur]? = some d)
    (hstatus : d.status.toNat < d.table.length) (hlegal : TableLegal d) (h : feedDecoder d s = .next t)
    (hfatal : t.fault.fatal = true) : t.fault.code = .bitOverflow := by
  obtain ⟨i, hi, hinstr⟩ := hlegal _ (List.getElem_mem hstatus)
  obtain hskip | heval := feedDecoder_of_row (s := s) (List.getElem?_eq_getElem hstatus)
  · cases hskip.symm.trans h
    cases hf.symm.trans hfatal
  · obtain ⟨e, herr, hcode⟩ := evaluateRow_defect hf hd hi (heval.symm.trans h) hfatal
    exact hcode.trans (rowOf_error_of_legal hinstr herr)

end Consumer

/-- Settles O24: of the consumer's actions only a feed halts the block, and `status` is inside the table by the invariant. -/
theorem legalTablesRaiseOnlyOverflow : Obligations.LegalTablesRaiseOnlyOverflow := by
  intro s t hinv hlegal hn hf hstep
  have heffect : ConsumerEffect (popTurn s) t := consumerTurn_next hf (step_consumer hn ▸ hstep)
  refine ⟨fun hfatal => ?_, consumer_tableLegal (s := popTurn s) hlegal heffect⟩
  cases heffect with
  | disabled | start | exit | fetch | retire => cases hf.symm.trans hfatal
  | feed _ hp hfeed =>
    cases hfeed with
    | done | skip => cases hf.symm.trans hfatal
    | row => split_ifs at hfatal <;> cases hf.symm.trans hfatal
    | defect d c x hd =>
      have hmem := List.mem_of_getElem? hd
      rw [step_feed hn hf hp, feedEvent_of_some hd] at hstep
      exact feedDecoder_defect_of_legal (s := popTurn s) hf hd (hinv.decs d hmem).status_lt (hlegal d hmem) hstep hfatal

end Sys2Proof.Machine

/-!
PROOFS. The family of 44_signal_queue.md: what a push does to the ring (O41, O43), the events no drain has fetched (O44), the
consumer's actions (O7, O11 to O13).
-/

namespace Sys2Proof.Machine

open Sys2Proof

/-! ## The ring -/

section Ring

variable {n : Nat} {q : Queue}

theorem queueLen_ne_zero (h : q.wf n) (hne : q.r ≠ q.w) : queueLen n q ≠ 0 :=
  fun h0 => hne (queueEmpty_iff.mp ((queueEmpty_iff_len h).mpr h0))

theorem queueList_eq_nil (h : q.wf n) (heq : q.r = q.w) : queueList n q = [] :=
  List.eq_nil_of_length_eq_zero (queueList_length.trans ((queueEmpty_iff_len h).mp (queueEmpty_iff.mpr heq)))

theorem queueList_ne_nil (h : q.wf n) (hne : q.r ≠ q.w) : queueList n q ≠ [] :=
  mt (fun hnil => by rw [← queueList_length, hnil, List.length_nil]) (queueLen_ne_zero h hne)

/-- The oldest event is the one in the slot at `r` (10_state.md R31). -/
theorem queueList_eq_cons {e : Event} (h : q.wf n) (hne : q.r ≠ q.w) (he : q.slots[q.r]? = some e) :
    queueList n q = e :: (queueList n q).tail := by
  have hhead : (queueList n q)[0]? = some e := by
    rw [queueList_get 0 (Nat.pos_of_ne_zero (queueLen_ne_zero h hne)), Nat.add_zero, Nat.mod_eq_of_lt h.2.1, he,
      Option.getD_some]
  exact (List.cons_head?_tail (List.head?_eq_getElem?.trans hhead)).symm

/-- Pushes without a consumer action, in order (44_signal_queue.md R281). -/
abbrev pushAll (n : Nat) (q : Queue) (es : List Event) : Queue := es.foldl (fun q e => queuePush n e q) q

theorem pushAll_concat (es : List Event) (e : Event) : pushAll n q (es ++ [e]) = queuePush n e (pushAll n q es) :=
  List.foldl_concat ..

theorem pushAll_wf (h : q.wf n) (es : List Event) : (pushAll n q es).wf n := by
  induction es using List.reverseRecOn with
  | nil => exact h
  | append_singleton es e ih => rw [pushAll_concat]; exact queuePush_wf e ih

/-- From an empty ring each push beyond the first `N - 1` drops one more of the oldest (44_signal_queue.md R281). -/
theorem queueList_pushAll (hn : 2 ≤ n) (h : q.wf n) (hempty : q.r = q.w) (es : List Event) :
    queueList n (pushAll n q es) = es.drop (es.length - (n - 1)) := by
  induction es using List.reverseRecOn with
  | nil => exact (queueList_eq_nil h hempty).trans List.drop_nil.symm
  | append_singleton es e ih =>
    have hwf := pushAll_wf h es
    have hfull : queueFull n (pushAll n q es) = true ↔ n - 1 ≤ es.length := by
      rw [queueFull_iff_len hn hwf, ← queueList_length, ih, List.length_drop]
      omega
    rw [pushAll_concat, queuePush_list e hn hwf, ih, List.length_append, List.length_singleton,
      List.drop_append_of_le_length (by omega)]
    split_ifs with hc
    · have hle := hfull.mp hc
      rw [List.tail_drop, show es.length - (n - 1) + 1 = es.length + 1 - (n - 1) by omega]
    · have hlt := mt hfull.mpr hc
      rw [show es.length - (n - 1) = es.length + 1 - (n - 1) by omega]

end Ring

/-- Settles O43, by induction on the pushes from the last one. -/
theorem overrunLaw : Obligations.OverrunLaw := by
  intro n q es hn h hempty
  have hlist := queueList_pushAll hn h hempty es
  refine ⟨hlist, fun hlen => hlist.trans ?_⟩
  rw [hlen, show n - (n - 1) = 1 by omega, List.drop_one]

/-! ## The edge -/

section Edge

variable {s : State}

/-- The raw duration of an edge, as a natural (44_signal_queue.md R271). -/
theorem edgeRaw_toNat (ts : Stamp) (s : State) :
    (edgeRaw ts s).toNat = (ts.toNat + 2 ^ 32 - s.prod.prevTs.toNat) % 2 ^ 32 := by
  have hprev := s.prod.prevTs.isLt
  rw [edgeRaw, BitVec.toNat_sub]
  congr 1
  omega

/-- Saturation is the minimum with the largest 16-bit value (44_signal_queue.md R271). -/
theorem saturate_eq (raw : Stamp) : saturate raw = BitVec.ofNat 16 (min raw.toNat 65535) := by
  unfold saturate
  split_ifs with h
  · rw [min_eq_left h, BitVec.ofNat_toNat]
  · rw [min_eq_right (by omega)]
    rfl

/-- A push touches the consumer only on an overrun (44_signal_queue.md R273). -/
theorem push_cons_of_full (ts : Stamp) (lvl : Bool) (hfull : queueFull s.cfg.qcap s.q = true) :
    (push ts lvl s).cons = { s.cons with holdValid := false } := by
  simp [push, hfull]

theorem push_cons_of_not_full (ts : Stamp) (lvl : Bool) (hfull : queueFull s.cfg.qcap s.q = false) :
    (push ts lvl s).cons = s.cons := by
  simp [push, hfull]

end Edge

/-- Settles O41, by the ring's push and the edge's duration as a natural. -/
theorem pushWritesEvent : Obligations.PushWritesEvent := by
  intro s t ts lvl hn hf hinv hstep raw
  obtain rfl : push ts lvl (popTurn s) = t := Host.Outcome.next.inj ((step_edge hn hf).symm.trans hstep)
  have hraw : (edgeRaw ts (popTurn s)).toNat = raw := edgeRaw_toNat ts (popTurn s)
  have hevent : edgeEvent ts lvl (popTurn s) =
      { d := compress s.cfg.compress (BitVec.ofNat 16 (min raw 65535)), lvl := lvl } := by
    rw [edgeEvent, saturate_eq, hraw, popTurn_cfg]
  have hslots : (push ts lvl (popTurn s)).q.slots = s.q.slots.set s.q.w (edgeEvent ts lvl (popTurn s)) :=
    queuePush_slots _
  have hr : (push ts lvl (popTurn s)).q.r = if queueFull s.cfg.qcap s.q then nextIdx s.cfg.qcap s.q.r else s.q.r :=
    queuePush_r _
  have hw : s.q.w < s.q.slots.length := hinv.queue.1 ▸ hinv.queue.2.2
  refine ⟨rfl, ?_, fun i hi => ?_, queuePush_w _, fun hc => ?_, fun hc => ?_, rfl, rfl, rfl, ?_, rfl, rfl⟩
  · rw [hslots, List.getElem?_set_self hw, hevent]
  · rw [hslots, List.getElem?_set_ne hi.symm]
  · have hfull : queueFull s.cfg.qcap s.q = true := queueFull_iff.mpr hc
    exact ⟨hr.trans (if_pos hfull), push_cons_of_full (s := popTurn s) ts lvl hfull⟩
  · have hfull : queueFull s.cfg.qcap s.q = false := Bool.eq_false_iff.mpr (mt queueFull_iff.mp hc)
    exact ⟨hr.trans (if_neg (by simp [hfull])), push_cons_of_not_full (s := popTurn s) ts lvl hfull⟩
  · rw [← hraw, BitVec.ofNat_toNat, BitVec.setWidth_eq]
    rfl

/-! ## The events no drain has fetched -/

section Unfetched

variable {s t : State}

theorem unfetched_of_held (hv : s.cons.holdValid = true) : unfetched s = (queueList s.cfg.qcap s.q).tail := if_pos hv

theorem unfetched_of_not_held (hv : s.cons.holdValid = false) : unfetched s = queueList s.cfg.qcap s.q :=
  if_neg (Bool.eq_false_iff.mp hv)

/-- The unfetched events are a matter of the ring and of `hold_valid`. -/
theorem unfetched_congr (hcfg : t.cfg = s.cfg) (hq : t.q = s.q) (hv : t.cons.holdValid = s.cons.holdValid) :
    unfetched t = unfetched s := by
  rw [unfetched, unfetched, hcfg, hq, hv]

theorem State.Inv.two_le_qcap (h : s.Inv) : 2 ≤ s.cfg.qcap := Nat.le_self_pow (Nat.one_le_iff_ne_zero.mp h.qcap) 2

/-- A push on the ring of the block, as a list. -/
theorem queueList_push (h : s.Inv) (ts : Stamp) (lvl : Bool) :
    queueList (push ts lvl s).cfg.qcap (push ts lvl s).q =
      (if queueFull s.cfg.qcap s.q = true then (queueList s.cfg.qcap s.q).tail else queueList s.cfg.qcap s.q) ++
        [edgeEvent ts lvl s] :=
  queuePush_list (edgeEvent ts lvl s) h.two_le_qcap h.queue

/-- An edge appends its event. The oldest entry an overrun drops is an unfetched one only when none is held
(44_signal_queue.md R273, R283). -/
theorem unfetched_push (h : s.Inv) (ts : Stamp) (lvl : Bool) :
    unfetched (push ts lvl s) = (if queueFull s.cfg.qcap s.q = true ∧ s.cons.holdValid = false then (unfetched s).tail
      else unfetched s) ++ [edgeEvent ts lvl s] := by
  cases hv : s.cons.holdValid with
  | false =>
    have hv' : (push ts lvl s).cons.holdValid = false := by simp [push, hv]
    rw [unfetched_of_not_held hv', unfetched_of_not_held hv, queueList_push h]
    simp only [and_true]
  | true =>
    rw [unfetched_of_held hv, if_neg (by simp)]
    cases hfull : queueFull s.cfg.qcap s.q with
    | true =>
      rw [unfetched_of_not_held (by rw [push_cons_of_full ts lvl hfull]), queueList_push h, if_pos hfull]
    | false =>
      rw [unfetched_of_held (by rw [push_cons_of_not_full ts lvl hfull, hv]), queueList_push h,
        if_neg (Bool.eq_false_iff.mp hfull), List.tail_append_of_ne_nil (queueList_ne_nil h.queue (h.held hv).1)]

/-- A feed moves no event. -/
theorem unfetched_feed (ht : FeedEffect s t) : unfetched t = unfetched s := by
  cases ht with
  | done | skip | defect => exact unfetched_congr rfl rfl rfl
  | row => split_ifs <;> exact unfetched_congr rfl rfl rfl

/-- A retire takes the held entry out of the ring, where it was no longer counted (44_signal_queue.md R279). -/
theorem unfetched_retire (h : s.Inv) : unfetched (retireEvent s) = unfetched s := by
  rw [unfetched_of_not_held (s := retireEvent s) rfl]
  cases hv : s.cons.holdValid with
  | true =>
    rw [unfetched_of_held hv, ← queueDrop_list h.queue (queueLen_ne_zero h.queue (h.held hv).1)]
    simp [retireEvent, hv]
  | false => simp [unfetched_of_not_held hv, retireEvent, hv]

/-- Outside FETCH a consumer action leaves the unfetched events alone. -/
theorem unfetched_consumer (h : s.Inv) (hp : s.cons.phase ≠ .fetch) (ht : ConsumerEffect s t) :
    unfetched t = unfetched s := by
  cases ht with
  | disabled => rfl
  | start => exact unfetched_congr rfl rfl rfl
  | exit hfetch | fetch _ hfetch => exact (hp hfetch).elim
  | feed _ _ ht => exact unfetched_feed ht
  | retire => exact unfetched_retire h

/-- A fetch exits where there is no unfetched event, and takes the oldest otherwise (44_signal_queue.md R277). -/
theorem unfetched_fetch (h : s.Inv) (hp : s.cons.phase = .fetch) (ht : ConsumerEffect s t) :
    (unfetched s = [] ∧ unfetched t = [] ∧ t.cons.phase = .idle) ∨
    (∃ e rest, unfetched s = e :: rest ∧ unfetched t = rest ∧ t.cons.hold = e ∧ t.cons.phase = .feed) := by
  have hv : s.cons.holdValid = false := Bool.eq_false_iff.mpr (h.not_held (by simp [hp]) (by simp [hp]))
  have hs := unfetched_of_not_held hv
  cases ht with
  | disabled hother | start hother | feed _ hother | retire hother => cases hp.symm.trans hother
  | exit _ hq =>
    have hnil := hs.trans (queueList_eq_nil h.queue hq)
    exact .inl ⟨hnil, (unfetched_congr rfl rfl rfl).trans hnil, rfl⟩
  | fetch e _ hq he => exact .inr ⟨e, _, hs.trans (queueList_eq_cons h.queue hq he), unfetched_of_held rfl, rfl, rfl⟩

/-- A host operation moves no event. -/
theorem unfetched_host {op : HostOp} (ht : HostEffect op s t) : unfetched t = unfetched s := by
  cases ht <;> exact unfetched_congr rfl rfl rfl

/-- A turn of the host, a `read_fault` and the expiry of a timeout move no event. -/
theorem unfetched_host_turn (hstep : step s = .next t)
    (hn : nextTurn s = .host ∨ nextTurn s = .readFault ∨ nextTurn s = .timeout) : unfetched t = unfetched s := by
  cases step_next hstep with
  | edge _ _ hother | consumer _ hother | blockReset hother => simp [hother] at hn
  | host _ _ _ _ _ _ ht => exact (unfetched_host ht).trans (unfetched_congr rfl rfl rfl)
  | pass | readFault | timeout => exact unfetched_congr rfl rfl rfl

end Unfetched

/-- Settles O44, agent by agent: the edge's push, the consumer's actions, the host's turns. -/
theorem noLossNoDuplication : Obligations.NoLossNoDuplication := by
  intro s t hinv hf hstep
  have hinv' : (popTurn s).Inv := popTurn_inv hinv
  have heffect (hn : nextTurn s = .consumer) : ConsumerEffect (popTurn s) t :=
    consumerTurn_next hf (step_consumer hn ▸ hstep)
  refine ⟨fun ts lvl hn => ?_, fun hn hp => unfetched_consumer (s := popTurn s) hinv' hp (heffect hn),
    unfetched_host_turn hstep, fun hn hp => unfetched_fetch (s := popTurn s) hinv' hp (heffect hn)⟩
  obtain rfl := Host.Outcome.next.inj ((step_edge hn hf).symm.trans hstep)
  exact unfetched_push hinv' ts lvl

/-! ## The consumer's actions -/

/-- The end-of-burst test passes a row on to its evaluation (43_interpreter.md R226, R227). -/
theorem feedDecoder_evaluates {s : State} {d : Decoder} {w : Row} (hw : d.table[d.status.toNat]? = some w)
    (hhead : s.cons.first = true → d.ready = false) (hlater : s.cons.first = false → rowOp w ≠ 0) :
    feedDecoder d s = evaluateRow d w s := by
  have hfrozen : ¬ (s.cons.first && d.ready) = true := by simpa using hhead
  have hwait : ¬ (!s.cons.first && rowOp w == 0) = true := by simpa using hlater
  rw [feedDecoder, if_neg hfrozen]
  simp only [rowAt, hw, if_neg hwait]

/-- A row that decodes is executed (43_interpreter.md R222). -/
theorem evaluateRow_of_exec {s t : State} {d : Decoder} {w : Row} {i : Instr} (hi : decode w = .ok i)
    (ht : exec i s = .next t) : evaluateRow d w s = .next (afterRow i t) := by
  simp only [evaluateRow, hi, ht]

/-- Settles O7: the feed evaluates the row, and `afterRow` is what it does then. -/
theorem stepRunsDecodedRow : Obligations.StepRunsDecodedRow := by
  intro s d w i hn hf hp hd hhead hw hlater hi
  refine ⟨fun t ht => ?_, exec_completes (s := popTurn s) hd⟩
  calc step s = feedEvent (popTurn s) := step_feed hn hf hp
    _ = feedDecoder d (popTurn s) := feedEvent_of_some hd
    _ = evaluateRow d w (popTurn s) := feedDecoder_evaluates hw hhead hlater
    _ = .next (afterRow i t) := evaluateRow_of_exec hi ht

/-- The start's guard (44_signal_queue.md R276). -/
theorem startEnabled_iff {s : State} (hp : s.cons.phase = .idle) :
    startEnabled s = true ↔ s.cons.busy = false ∧ s.q.r ≠ s.q.w := by
  simp [startEnabled, hp, queueEmpty]

/-- The consumer's turn in phase IDLE. -/
theorem step_idle {s : State} (hn : nextTurn s = .consumer) (hf : s.fault.fatal = false) (hp : s.cons.phase = .idle) :
    step s = .next (if startEnabled (popTurn s) then startDrain (popTurn s) else popTurn s) := by
  simp [step_consumer hn, consumerTurn, hf, hp]

/-- Settles O11, by the start's guard. -/
theorem startIsGuarded : Obligations.StartIsGuarded := by
  intro s hn hf hp
  have hguard := startEnabled_iff (s := popTurn s) hp
  rw [step_idle hn hf hp]
  refine ⟨fun hbusy hq => ?_, fun hoff => ?_⟩
  · rw [if_pos (hguard.mpr ⟨hbusy, hq⟩)]
    rfl
  · rw [if_neg]
    intro hon
    obtain ⟨hbusy, hq⟩ := hguard.mp hon
    exact hoff.elim (Bool.eq_false_iff.mp hbusy) hq

/-- The consumer's turn in phase FETCH. -/
theorem step_fetch {s : State} (hn : nextTurn s = .consumer) (hf : s.fault.fatal = false) (hp : s.cons.phase = .fetch) :
    step s = fetchEvent (popTurn s) := by
  simp [step_consumer hn, consumerTurn, hf, hp]

/-- A fetch from a queue that is not empty copies the entry at `r` (44_signal_queue.md R277). -/
theorem fetchEvent_of_slot {s : State} {e : Event} (hq : s.q.r ≠ s.q.w) (he : s.q.slots[s.q.r]? = some e) :
    fetchEvent s = .next (s.setCons
      { s.cons with hold := e, holdValid := true, cur := 0, first := true, phase := .feed }) := by
  rw [fetchEvent, if_neg (mt queueEmpty_iff.mp hq), he]

/-- Settles O12, by the fetch's test of the queue. -/
theorem fetchTakesOldest : Obligations.FetchTakesOldest := by
  intro s hn hf hp
  rw [step_fetch hn hf hp]
  exact ⟨fun hq => if_pos (queueEmpty_iff.mpr hq), fun e hq he => fetchEvent_of_slot (s := popTurn s) hq he⟩

/-- Settles O13: the turn in phase RETIRE is `retireEvent`. -/
theorem retireFreesSlot : Obligations.RetireFreesSlot := by
  intro s hn hf hp
  have hturn : step s = .next (retireEvent (popTurn s)) := by simp [step_consumer hn, consumerTurn, hf, hp]
  exact hturn

end Sys2Proof.Machine

/-!
PROOFS. The family of 45_host_interface.md: dispatch and decoder reset (O45 to O47), registration (O39, O40), the host's turn and
the expiry of a timeout (O48, O49), and where a step stops (O56).
-/

namespace Sys2Proof.Machine

open Sys2Proof

/-! ## Which callbacks fire -/

/-- The filter test without the comparison: no filter, or one that is the frame (45_host_interface.md R318). -/
theorem cbMatches_eq (f : Frame) (cb : Callback) :
    cbMatches f cb = (decide (cb.filter = none) || decide (cb.filter = some f)) := by
  unfold cbMatches
  cases cb.filter with
  | none => rfl
  | some g =>
    rw [Bool.eq_iff_iff, beq_iff_eq, compareFrames_eq_eq_iff]
    simp [eq_comm]

/-- The retrigger test on naturals (45_host_interface.md R319). -/
theorem cbDue_eq (now : Stamp) (cb : Callback) :
    cbDue now cb = (!cb.fired || decide (cb.interval.toNat ≤ (now.toNat + 2 ^ 32 - cb.last.toNat) % 2 ^ 32)) := by
  have helapsed : (now - cb.last).toNat = (now.toNat + 2 ^ 32 - cb.last.toNat) % 2 ^ 32 := by
    have hlast := cb.last.isLt
    rw [BitVec.toNat_sub]
    congr 1
    omega
  simp only [cbDue, BitVec.le_def, helapsed]

theorem cbFires_eq (now : Stamp) (f : Frame) (cb : Callback) : cbFires now f cb =
    ((decide (cb.filter = none) || decide (cb.filter = some f)) &&
      (!cb.fired || decide (cb.interval.toNat ≤ (now.toNat + 2 ^ 32 - cb.last.toNat) % 2 ^ 32))) := by
  rw [cbFires, cbMatches_eq, cbDue_eq]

/-- The invocations of a dispatch without the recursion: the decoders in list order, each with its index (R317). -/
theorem dispatchCalls_eq (now : Stamp) (k : Nat) (ds : List Decoder) : dispatchCalls now k ds =
    (ds.zipIdx k).flatMap fun (d, j) => if d.ready then decoderCalls now j d else [] := by
  induction ds generalizing k with
  | nil => rfl
  | cons d ds ih => rw [dispatchCalls, ih, List.zipIdx_cons, List.flatMap_cons]

/-! ## Dispatch and decoder reset -/

section Dispatch

variable {s : State} {k : Nat} {d : Decoder}

/-- The registers a decoder reset writes (45_host_interface.md R321). -/
theorem decoderReset_eq (d : Decoder) : decoderReset d = { d with status := 0, ready := false, v := 0, cnt := 0 } := rfl

/-- A dispatch of a ready decoder: its records updated, its registers reset (45_host_interface.md R317, R320). -/
theorem dispatchDecoder_of_ready (now : Stamp) (hr : d.ready = true) : dispatchDecoder now d =
    { d with status := 0, v := 0, cnt := 0, ready := false, callbacks := d.callbacks.map (cbAfter now (frameOf d)) } :=
  if_pos hr

/-- A dispatch leaves each decoder at its index. -/
theorem dispatchReady_getElem? (now : Stamp) (hd : s.decs[k]? = some d) :
    (dispatchReady now s).decs[k]? = some (dispatchDecoder now d) :=
  List.getElem?_map.trans (congrArg _ hd)

theorem anyReady_iff : anyReady s = true ↔ ∃ d ∈ s.decs, d.ready = true := List.any_eq_true

theorem anyReady_dispatchReady (now : Stamp) (s : State) : anyReady (dispatchReady now s) = false := by
  rw [Bool.eq_false_iff, ne_eq, anyReady_iff]
  rintro ⟨d', hmem, hready⟩
  obtain ⟨d, _, rfl⟩ := List.mem_map.mp (show d' ∈ s.decs.map (dispatchDecoder now) from hmem)
  exact Bool.false_ne_true ((dispatchDecoder_ready now d).symm.trans hready)

end Dispatch

/-- Settles O45: a dispatch maps `dispatchDecoder` over the list, which resets a ready decoder and leaves any other. -/
theorem dispatchResetsReady : Obligations.DispatchResetsReady := by
  intro s t now h
  obtain rfl : dispatchReady now s = t := Host.Outcome.next.inj h
  refine ⟨List.length_map _, anyReady_dispatchReady now s, fun k d hd hr => ?_, fun k d hd hr => ?_, rfl, rfl, rfl, rfl, rfl⟩
  · rw [dispatchReady_getElem? now hd, dispatchDecoder_of_not_ready now hr]
  · exact ⟨_, (dispatchReady_getElem? now hd).trans (congrArg some (dispatchDecoder_of_ready now hr))⟩

/-- Settles O46, by the firing test as the statement writes it: it selects the invocations and the records written. -/
theorem dispatchFiresCallbacks : Obligations.DispatchFiresCallbacks := by
  intro s now due
  have hdue : ∀ d, cbFires now (frameOf d) = due d := fun d => funext fun cb => cbFires_eq now (frameOf d) cb
  have hcalls : ∀ (k : Nat) (d : Decoder), decoderCalls now k d = (d.callbacks.filter (due d)).map fun cb =>
      { dec := k, fn := cb.fn, frame := { cnt := d.cnt, v := d.v } } := fun k d => by rw [← hdue]; rfl
  refine ⟨dispatchReady now s, rfl, ?_, fun k d j cb hd hr hcb => ?_⟩
  · simp only [← hcalls]
    exact congrArg Reply.dispatched (dispatchCalls_eq now 0 s.decs)
  · refine ⟨_, cbAfter now (frameOf d) cb, dispatchReady_getElem? now hd, ?_, ?_⟩
    · rw [dispatchDecoder_of_ready now hr, List.getElem?_map, hcb, Option.map_some]
    · rw [cbAfter, hdue]

/-- Settles O47: the operation writes `decoderReset` of its decoder. -/
theorem resetDecoderClears : Obligations.ResetDecoderClears := by
  intro s k d hd
  rw [← decoderReset_eq]
  exact onDecoder_some hd _

/-! ## Registration -/

section Registration

variable {s : State}

theorem beforeFirstEdge_of_not_started (h : s.aux.started = false) (f : State → State) :
    beforeFirstEdge f s = .next (f s) := if_neg (Bool.eq_false_iff.mp h)

theorem beforeFirstEdge_of_started (h : s.aux.started = true) (f : State → State) :
    beforeFirstEdge f s = .refused .registrationAfterFirstEdge := if_pos h

/-- The ranges of a registered table (45_host_interface.md R313, 00_scope.md R9). -/
theorem tableInRange_iff {table : List Row} {params : List Entry} {nbits : Nat} :
    tableInRange table params nbits s = true ↔ 1 ≤ table.length ∧ table.length ≤ 256 ∧ 1 ≤ params.length ∧
      params.length ≤ 256 ∧ 1 ≤ nbits ∧ nbits ≤ 255 ∧ s.decs.length < 255 := by
  simp only [tableInRange, Bool.and_eq_true, decide_eq_true_eq, and_assoc]

theorem registerTable_of_inRange {table : List Row} {params : List Entry} {nbits : Nat} (cbs : List CallbackSpec)
    (h : tableInRange table params nbits s = true) : registerTable table params nbits cbs s =
      appendDecoder (newDecoder table params (BitVec.ofNat 8 nbits) cbs) s := if_pos h

theorem registerTable_of_not_inRange {table : List Row} {params : List Entry} {nbits : Nat} (cbs : List CallbackSpec)
    (h : ¬ tableInRange table params nbits s = true) : registerTable table params nbits cbs s = configFatal 8 s := if_neg h

theorem registerBuilt_of_error {p : Template} {t : TimingParams} {n : Nat} (cb : Option CallbackSpec)
    (h : build s.cfg.compress p t = .error n) : registerBuilt p t cb s = configFatal (BitVec.ofNat 16 n) s := by
  rw [registerBuilt, h]

theorem registerBuilt_of_ok {p : Template} {t : TimingParams} {table : List Row} {params : List Entry} {nbits : Index8}
    (cb : Option CallbackSpec) (h : build s.cfg.compress p t = .ok (table, params, nbits)) (hn : s.decs.length < 255) :
    registerBuilt p t cb s = appendDecoder (newDecoder table params nbits cb.toList) s := by
  simp only [registerBuilt, h, if_pos hn]

end Registration

/-- Settles O39: either registration's defect ends in `configFatal`. -/
theorem configDefectRegistersNothing : Obligations.ConfigDefectRegistersNothing := by
  intro s hs
  refine ⟨fun t cb n hbuild => ?_, fun table params nbits cbs hrange => ?_⟩
  · calc hostAct (.registerDecoder t cb) s
        = .next (registerBuilt (Config.template t.family) t cb s) := beforeFirstEdge_of_not_started hs _
      _ = .next (configFatal (BitVec.ofNat 16 n) s) := by rw [registerBuilt_of_error cb hbuild]
  · have hout : ¬ tableInRange table params nbits s = true := by
      rw [tableInRange_iff]
      omega
    calc hostAct (.registerTable table params nbits cbs) s
        = .next (registerTable table params nbits cbs s) := beforeFirstEdge_of_not_started hs _
      _ = .next (configFatal 8 s) := by rw [registerTable_of_not_inRange cbs hout]

/-- Settles O40: a registration in range is `appendDecoder` of a new decoder, and the first edge is tested before it. -/
theorem registrationAppends : Obligations.RegistrationAppends := by
  refine ⟨fun s hs => ⟨fun t cb => beforeFirstEdge_of_started hs _, fun table params nbits cbs =>
    beforeFirstEdge_of_started hs _⟩, fun s hs hn => ⟨?_, ?_, fun t cb => beforeFirstEdge_of_not_started hs _⟩⟩
  · intro table params nbits cbs hlen hlen' hparams hparams' hbits hbits'
    have hrange := tableInRange_iff.mpr ⟨hlen, hlen', hparams, hparams', hbits, hbits', hn⟩
    exact (beforeFirstEdge_of_not_started hs _).trans (congrArg _ (registerTable_of_inRange cbs hrange))
  · intro p t cb table params nbits hbuild
    exact registerBuilt_of_ok cb hbuild hn

/-! ## The host's turn -/

section HostTurn

variable {s : State} {op : HostOp} {rest : List HostOp}

theorem hostRuns_iff : hostRuns s = true ↔ s.cons.busy = false ∧ s.fault.fatal = false := by
  simp [hostRuns, and_comm]

/-- The guard of a host operation (45_host_interface.md R325, 60_exceptions.md R353). -/
theorem hostEnabled_iff : hostEnabled s op = true ↔
    op = .readFault ∨ (s.cons.busy = false ∧ s.fault.fatal = false) ∧ waitOver s op = true := by
  rw [hostEnabled, Bool.or_eq_true, Bool.and_eq_true, beq_iff_eq, hostRuns_iff]

/-- The two operations that wait (45_host_interface.md R315, R326). -/
theorem waitOver_iff : waitOver s op = true ↔ (op = .blockUntilFrameReady → anyReady s = true) ∧
    ∀ x, op = .waitChannelClear x → channelClear s = true := by
  cases op <;> simp [waitOver]

theorem channelClear_iff : channelClear s = true ↔
    s.cfg.ccVotes ≤ ((s.host.ccTimes.take s.cfg.ccWindow).filter Config.ccInRange).length := decide_eq_true_iff

/-- An enabled operation runs and is taken off the list (45_host_interface.md R325). -/
theorem step_host_enabled (hn : nextTurn s = .host) (ho : s.env.hostOps = op :: rest) (he : hostEnabled s op = true) :
    step s = hostAct op (s.setEnv { turns := s.env.turns.tail, hostOps := rest }) := by
  have he' : hostEnabled (popTurn s) op = true := he
  rw [step_host hn, hostTurn, popTurn_hostOps, ho]
  exact if_pos he'

/-- A disabled operation stays at the head of the list (log 5). -/
theorem step_host_disabled (hn : nextTurn s = .host) (ho : s.env.hostOps = op :: rest) (he : ¬ hostEnabled s op = true) :
    step s = .next (popTurn s) := by
  have he' : ¬ hostEnabled (popTurn s) op = true := he
  rw [step_host hn, hostTurn, popTurn_hostOps, ho]
  exact if_neg he'

/-- The expiry of the timeout of a pending wait answers whether the channel is clear (45_host_interface.md R326). -/
theorem timeoutTurn_of_timed {x : Stamp} (ho : s.env.hostOps = .waitChannelClear (some x) :: rest)
    (hruns : hostRuns s = true) : timeoutTurn s =
      .next ((s.setEnv { s.env with hostOps := rest }).setReply (.channel (channelClear s))) := by
  rw [timeoutTurn, ho]
  exact if_pos hruns

/-- A wait without a timeout waits on. -/
theorem timeoutTurn_of_untimed (ho : s.env.hostOps = .waitChannelClear none :: rest) : timeoutTurn s = .next s := by
  rw [timeoutTurn, ho]

/-- The expiry of a timeout. -/
theorem step_timeout (hn : nextTurn s = .timeout) : step s = timeoutTurn (popTurn s) := by simp [step, hn, runTurn]

end HostTurn

/-- Settles O48, by the guard of the oldest operation. -/
theorem hostRunsOnlyIdle : Obligations.HostRunsOnlyIdle := by
  refine ⟨fun s op rest hn ho => ⟨fun hread => ?_, fun hop hstop => ?_, fun hbusy hfatal hframe hclear => ?_,
    fun hop hnone => ?_⟩, fun s => ⟨anyReady_iff, rfl, rfl⟩⟩
  · subst hread
    exact step_host_enabled hn ho (hostEnabled_iff.mpr (.inl rfl))
  · refine step_host_disabled hn ho (mt hostEnabled_iff.mp ?_)
    rintro (hread | ⟨⟨hbusy, hfatal⟩, _⟩)
    · exact hop hread
    · exact hstop.elim (Bool.eq_false_iff.mp hbusy) (Bool.eq_false_iff.mp hfatal)
  · exact step_host_enabled hn ho (hostEnabled_iff.mpr (.inr ⟨⟨hbusy, hfatal⟩, waitOver_iff.mpr ⟨hframe, hclear⟩⟩))
  · subst hop
    refine step_host_disabled hn ho (mt hostEnabled_iff.mp ?_)
    rintro (hread | ⟨_, hwait⟩)
    · cases hread
    · exact Bool.eq_false_iff.mp hnone hwait

/-- Settles O49, by the count of votes: it is the wait's guard on the host's turn and its reply on the expiry. -/
theorem channelClearWait : Obligations.ChannelClearWait := by
  intro s x rest ho hbusy hfatal votes popped
  have hclear : channelClear s = true ↔ s.cfg.ccVotes ≤ votes := channelClear_iff
  have hblocked (hlt : votes < s.cfg.ccVotes) : channelClear s = false := by
    rw [Bool.eq_false_iff, ne_eq, hclear]
    omega
  refine ⟨fun hn hle => ?_, fun hn hlt => ?_, fun hn hx hlt => ?_, fun hn hx => ?_⟩
  · calc step s
        = hostAct (.waitChannelClear x) popped :=
          step_host_enabled hn ho (hostEnabled_iff.mpr (.inr ⟨⟨hbusy, hfatal⟩, hclear.mpr hle⟩))
      _ = .next (popped.setReply (.channel (channelClear s))) := rfl
      _ = .next (popped.setReply (.channel true)) := by rw [hclear.mpr hle]
  · refine step_host_disabled hn ho (mt hostEnabled_iff.mp ?_)
    rintro (hread | ⟨_, hwait⟩)
    · cases hread
    · exact Bool.eq_false_iff.mp (hblocked hlt) hwait
  · obtain ⟨y, rfl⟩ := Option.ne_none_iff_exists'.mp hx
    calc step s
        = timeoutTurn (popTurn s) := step_timeout hn
      _ = .next (popped.setReply (.channel (channelClear s))) :=
          timeoutTurn_of_timed (s := popTurn s) ho (hostRuns_iff.mpr ⟨hbusy, hfatal⟩)
      _ = .next (popped.setReply (.channel false)) := by rw [hblocked hlt]
  · subst hx
    exact (step_timeout hn).trans (timeoutTurn_of_untimed (s := popTurn s) ho)

/-! ## Where a step stops -/

section Stops

variable {s : State}

/-- With the cursors in the ring a fetch completes (44_signal_queue.md R277). -/
theorem fetchEvent_completes (h : s.Inv) : ∃ t, fetchEvent s = .next t := by
  obtain ⟨hslots, hr, _⟩ := h.queue
  by_cases hq : s.q.r = s.q.w
  · exact ⟨_, if_pos (queueEmpty_iff.mpr hq)⟩
  · exact ⟨_, fetchEvent_of_slot hq (List.getElem?_eq_getElem (hslots ▸ hr))⟩

/-- From the invariant the consumer's action completes, whatever the phase. -/
theorem consumerTurn_completes (h : s.Inv) : ∃ t, consumerTurn s = .next t := by
  unfold consumerTurn
  by_cases hf : s.fault.fatal = true
  · exact ⟨_, if_pos hf⟩
  · rw [if_neg hf]
    cases hp : s.cons.phase with
    | idle => exact ⟨_, rfl⟩
    | fetch => exact fetchEvent_completes h
    | feed => exact feedEvent_stops (h.cur hp)
    | retire => exact ⟨_, rfl⟩

/-- The host's turn stops only where its operation is refused. -/
theorem hostTurn_stops (s : State) : (∃ t, hostTurn s = .next t) ∨
    hostTurn s = .refused .registrationAfterFirstEdge ∨ hostTurn s = .refused .noSuchHandle := by
  unfold hostTurn
  split
  · exact .inl ⟨_, rfl⟩
  · split_ifs
    · exact hostAct_stops _
    · exact .inl ⟨_, rfl⟩

theorem timeoutTurn_completes (s : State) : ∃ t, timeoutTurn s = .next t := by
  unfold timeoutTurn
  split
  · split_ifs <;> exact ⟨_, rfl⟩
  · exact ⟨_, rfl⟩

end Stops

/-- Settles O56, agent by agent: only the consumer needs the invariant, and only the host's turn can be refused. -/
theorem noStopFromInv : Obligations.NoStopFromInv := by
  intro s h
  cases hn : nextTurn s with
  | edge | readFault | blockReset => exact .inl ⟨_, by rw [step, hn]; rfl⟩
  | consumer =>
    rw [step_consumer hn]
    exact .inl (consumerTurn_completes (popTurn_inv h))
  | host =>
    rw [step_host hn]
    exact (hostTurn_stops (popTurn s)).imp_right fun hrefused => ⟨rfl, hrefused⟩
  | timeout =>
    rw [step_timeout hn]
    exact .inl (timeoutTurn_completes (popTurn s))

end Sys2Proof.Machine

/-!
PROOFS. The family of 60_exceptions.md: an illegal row (O8), the action that raises a fault (O52), the halt (O51), a readout
index out of range (O28), `read_fault` and the register view (O50).
-/

namespace Sys2Proof.Machine

open Sys2Proof

/-! ## An illegal row -/

section Illegal

variable {s : State} {d : Decoder} {w : Row}

/-- A row outside 30_encoding.md R101 and R108 has no instruction. -/
theorem decode_ne_ok_of_illegal (h : 7 ≤ (rowOp w).toNat ∨ rowRes w ≠ 0) (i : Instr) : decode w ≠ .ok i := by
  intro hi
  obtain ⟨hres, -, -, hle⟩ := decode_ok_fields hi
  obtain hop | hne := h
  · omega
  · exact hne hres

/-- A row without an instruction raises `BAD_OPCODE` (60_exceptions.md R342). -/
theorem evaluateRow_of_illegal (h : ∀ i, decode w ≠ .ok i) :
    evaluateRow d w s = rowRaises s d .badOpcode ((rowOp w).setWidth 16) := by
  cases hdecode : decode w with
  | error e => rw [evaluateRow, hdecode]; rfl
  | ok i => exact (h i hdecode).elim

end Illegal

/-- Settles O8: the feed evaluates the row, and the row has no instruction. -/
theorem illegalRowRaisesBadOpcode : Obligations.IllegalRowRaisesBadOpcode := by
  intro s d w hn hf hp hd hhead hw hlater hillegal
  calc step s = feedEvent (popTurn s) := step_feed hn hf hp
    _ = feedDecoder d (popTurn s) := feedEvent_of_some hd
    _ = evaluateRow d w (popTurn s) := feedDecoder_evaluates hw hhead hlater
    _ = rowRaises (popTurn s) d .badOpcode ((rowOp w).setWidth 16) :=
        evaluateRow_of_illegal (decode_ne_ok_of_illegal hillegal)

/-! ## The action that raises a fault -/

section Raises

variable {s t : State}

/-- Of the consumer's actions only a row's defect halts the block, and it writes the fault registers alone. -/
theorem consumer_raises (hf : s.fault.fatal = false) (ht : ConsumerEffect s t) (hfatal : t.fault.fatal = true) :
    ∃ f, t = s.setFault f := by
  cases ht with
  | disabled | start | exit | fetch | retire => cases hf.symm.trans hfatal
  | feed _ _ hfeed =>
    cases hfeed with
    | done | skip => cases hf.symm.trans hfatal
    | row => split_ifs at hfatal <;> cases hf.symm.trans hfatal
    | defect => exact ⟨_, rfl⟩

/-- Of the host's operations only a defect halts the block; beside the fault registers it may use up a free value (log 12). -/
theorem host_raises {op : HostOp} (hf : s.fault.fatal = false) (ht : HostEffect op s t) (hfatal : t.fault.fatal = true) :
    ∃ f x, t = (s.setFault f).setAux x := by
  cases ht with
  | reply | register | dispatch | reset => cases hf.symm.trans hfatal
  | defect => exact ⟨_, _, rfl⟩

/-- The step that halts the block writes the fault registers and, outside the block, the inputs and the free-value counter
(60_exceptions.md R351). -/
theorem step_raises (hf : s.fault.fatal = false) (hstep : step s = .next t) (hfatal : t.fault.fatal = true) :
    ∃ e f x, t = ((s.setEnv e).setFault f).setAux x := by
  cases step_next hstep with
  | pass | edge | readFault | timeout => cases hf.symm.trans hfatal
  | blockReset => cases hfatal
  | consumer _ _ _ ht =>
    obtain ⟨f, rfl⟩ := consumer_raises (s := popTurn s) hf ht hfatal
    exact ⟨(popTurn s).env, f, s.aux, rfl⟩
  | host _ rest _ _ _ _ ht =>
    obtain ⟨f, x, rfl⟩ := host_raises (s := s.setEnv { turns := s.env.turns.tail, hostOps := rest }) hf ht hfatal
    exact ⟨_, f, x, rfl⟩

end Raises

/-- Settles O52: the parts `step_raises` does not name stay. -/
theorem faultCommitsNothingElse : Obligations.FaultCommitsNothingElse := by
  intro s t hf hstep hfatal
  obtain ⟨e, f, x, rfl⟩ := step_raises hf hstep hfatal
  exact ⟨rfl, rfl, rfl, rfl, rfl, rfl⟩

/-! ## The halt -/

section Halt

variable {s : State}

/-- In a halted block no operation but `read_fault` is enabled (60_exceptions.md R352, R353). -/
theorem hostEnabled_of_halted {op : HostOp} (hf : s.fault.fatal = true) : hostEnabled s op = true ↔ op = .readFault := by
  simp [hostEnabled_iff, hf]

/-- In a halted block the expiry of a timeout does nothing. -/
theorem timeoutTurn_of_halted (hf : s.fault.fatal = true) : timeoutTurn s = .next s := by
  have hruns : ¬ hostRuns s = true := by simp [hostRuns_iff, hf]
  unfold timeoutTurn
  split
  · exact if_neg hruns
  · rfl

/-- The host's turn in a halted block: nothing, or a pending `read_fault`. -/
theorem step_host_halted (hf : s.fault.fatal = true) (hn : nextTurn s = .host) :
    step s = .next (popTurn s) ∨
    ∃ rest, step s = .next ((s.setEnv { turns := s.env.turns.tail, hostOps := rest }).setReply (fstatReply s.fault)) := by
  cases ho : s.env.hostOps with
  | nil =>
    refine .inl ?_
    rw [step_host hn, hostTurn, popTurn_hostOps, ho]
  | cons op rest =>
    by_cases hop : op = .readFault
    · subst hop
      exact .inr ⟨rest, step_host_enabled hn ho ((hostEnabled_of_halted hf).mpr rfl)⟩
    · exact .inl (step_host_disabled hn ho (mt (hostEnabled_of_halted hf).mp hop))

/-- The turn of a `read_fault`, halted or not (60_exceptions.md R353). -/
theorem step_readFault (hn : nextTurn s = .readFault) : step s = .next ((popTurn s).setReply (fstatReply s.fault)) := by
  rw [step, hn]
  rfl

/-- Every step of a halted block but block reset goes on; it takes inputs off their lists, and a `read_fault` replies
(60_exceptions.md R352). -/
theorem step_halted (hf : s.fault.fatal = true) (hreset : nextTurn s ≠ .blockReset) :
    ∃ e, step s = .next (s.setEnv e) ∨ step s = .next ((s.setEnv e).setReply (fstatReply s.fault)) := by
  cases hn : nextTurn s with
  | edge ts lvl =>
    have hdrop : edgeTurn ts lvl (popTurn s) = popTurn s := if_pos hf
    exact ⟨_, .inl (by rw [step, hn, runTurn, hdrop]; rfl)⟩
  | consumer =>
    have hstop : consumerTurn (popTurn s) = .next (popTurn s) := if_pos hf
    exact ⟨_, .inl ((step_consumer hn).trans hstop)⟩
  | host =>
    obtain hpass | ⟨rest, hread⟩ := step_host_halted hf hn
    · exact ⟨_, .inl hpass⟩
    · exact ⟨_, .inr hread⟩
  | readFault => exact ⟨_, .inr (step_readFault hn)⟩
  | timeout => exact ⟨_, .inl ((step_timeout hn).trans (timeoutTurn_of_halted (s := popTurn s) hf))⟩
  | blockReset => exact (hreset hn).elim

end Halt

/-- Settles O51: the parts `step_halted` does not name stay. -/
theorem haltStopsAll : Obligations.HaltStopsAll := by
  intro s hf hreset
  obtain ⟨e, hpass | hread⟩ := step_halted hf hreset
  · exact ⟨_, hpass, rfl, rfl, rfl, rfl, rfl, rfl, rfl, rfl, .inl rfl⟩
  · exact ⟨_, hread, rfl, rfl, rfl, rfl, rfl, rfl, rfl, rfl, .inr rfl⟩

/-! ## Readouts out of range and the register view -/

/-- Settles O28: the index is tested before `ready` is read. -/
theorem readoutOutOfRange : Obligations.ReadoutOutOfRange := by
  intro s k d i hd
  refine ⟨fun hi => ?_, fun hi => ?_⟩
  · have hfatal : readNthBit k i d s = bitIndexFatal k i s := if_neg (Nat.not_lt.mpr hi)
    exact (onDecoder_some hd _).trans (congrArg _ hfatal)
  · have hfatal : readNthByte k i d s = bitIndexFatal k i s := if_neg (Nat.not_lt.mpr hi)
    exact (onDecoder_some hd _).trans (congrArg _ hfatal)

/-- Settles O50: `read_fault` by its own turn and as an operation, DCFG and DSTAT through the handle. -/
theorem readFaultAlwaysEnabled : Obligations.ReadFaultAlwaysEnabled := by
  intro s fstat
  have hfstat : fstat = fstatReply s.fault := rfl
  rw [hfstat]
  exact ⟨step_readFault, rfl, rfl, fun k d hd => ⟨onDecoder_some hd _, onDecoder_some hd _⟩⟩

end Sys2Proof.Machine

/-!
PROOFS. The family of 70_reset_and_hazards.md: the state after block reset (O53, O54) and the decoder whose frame is ready (O58).
-/

namespace Sys2Proof.Machine

open Sys2Proof

/-! ## Block reset -/

/-- The turn of block reset, from every state (70_reset_and_hazards.md R380). -/
theorem step_blockReset {s : State} (hn : nextTurn s = .blockReset) : step s = .next (blockReset (popTurn s)) := by
  rw [step, hn]
  rfl

/-- Settles O53: the registers of `State.resetOf`, which block reset takes over from every state. -/
theorem blockResetState : Obligations.BlockResetState := by
  unfold Obligations.BlockResetState
  intro isReset
  have hreset (t : State) (hdecs : t.decs = []) (hq : t.q = Queue.empty t.cfg.qcap) (hprod : t.prod = { prevTs := 0 })
      (hcons : t.cons = Consumer.idle) (hfault : t.fault = FaultRegs.clear) : isReset t := by
    simp [isReset, hdecs, hq, hprod, hcons, hfault, Queue.empty, Consumer.idle, FaultRegs.clear]
  exact ⟨hreset _ rfl rfl rfl rfl rfl,
    fun s hn => ⟨blockReset (popTurn s), step_blockReset hn, rfl, hreset _ rfl rfl rfl rfl rfl⟩⟩

/-- Settles O54: the model's reset state is that of a legal build. -/
theorem invAtReset : Obligations.InvAtReset :=
  have hdefault : 1 ≤ BuildCfg.default.qcapLog2.toNat := by decide
  ⟨fun _ hc => resetOf_inv hc, resetOf_inv hdefault⟩

/-! ## A ready frame -/

/-- In the middle of a burst the decoder being fed is not ready, and a ready one is passed over at the head row: of the
consumer's actions only a committed row writes a decoder, so a ready decoder stays (70_reset_and_hazards.md R395). -/
theorem consumer_keeps_ready_decoder {s t : State} {k : Nat} {d : Decoder} (h : s.Inv) (ht : ConsumerEffect s t)
    (hd : s.decs[k]? = some d) (hready : d.ready = true) : t.decs[k]? = some d := by
  cases ht with
  | disabled | start | exit | fetch | retire => exact hd
  | feed _ hp hfeed =>
    cases hfeed with
    | done | skip | defect => exact hd
    | row x x' w i hx _ _ _ hr =>
      have hother : s.cons.cur ≠ k := by
        rintro rfl
        rw [hd, Option.some.injEq] at hx
        subst hx
        exact Bool.false_ne_true ((h.fed_not_ready hp hd hr).symm.trans hready)
      have hkept : (s.decs.set s.cons.cur x')[k]? = some d := (List.getElem?_set_ne hother).trans hd
      split_ifs <;> exact hkept

/-- Settles O58, by the cases of a step: an edge writes no decoder, and the consumer writes none that is ready. -/
theorem readyFrameStable : Obligations.ReadyFrameStable := by
  intro s t k d hinv hstep hd hready hturn
  cases step_next hstep with
  | pass | edge | readFault | timeout => exact hd
  | consumer _ _ _ ht => exact consumer_keeps_ready_decoder (popTurn_inv hinv) ht hd hready
  | host _ _ _ hn | blockReset hn => simp [hn] at hturn

end Sys2Proof.Machine
